-- ==== Sys2Proof/Word.lean ====
section
/-! DEFINITION. The word types of the rust-chip-8 CORE (spec/00_scope.md rules R6, R7, R8): widths only.
Arithmetic on them lives where an instruction uses it. -/

namespace Sys2Proof

/-- 8 bits: a general register, a memory byte, a timer (`REG_W`, `TIMER_W`; R6). -/
abbrev Byte := BitVec 8

/-- 16 bits: `pc`, `I`, a stack entry, an instruction word (`PC_W`, `I_W`, `STACK_W`; R6, R8). -/
abbrev Word := BitVec 16

/-- 4 bits: one nibble of the instruction word (R8). -/
abbrev Nibble := BitVec 4

/-- The 12-bit immediate `nnn` (R8, R73). -/
abbrev Imm12 := BitVec 12

/-- The number of a general register, `V[0]` to `V[15]` (R21): every value of a 4-bit field names one. -/
abbrev Reg := Fin 16

/-- The number of VF, the register the flag-producing instructions write (R22). -/
abbrev vf : Reg := 15

end Sys2Proof
end

