-- ==== Sys2Proof/Config.lean ====
section
/-! DEFINITION. What an implementation fixes (spec/00_scope.md rule R6) and the one free value of the model.
The load address and the font stand in Sys2Proof/Machine/ResetValues.lean. -/

namespace Sys2Proof.Config

/-- Bytes of memory, addresses 0 to 4095 (R6, R50). -/
abbrev memSize : Nat := 4096

/-- Framebuffer width in pixels (R6, R150). -/
abbrev screenW : Nat := 64

/-- Framebuffer height in pixels (R6, R150). -/
abbrev screenH : Nat := 32

/-- Framebuffer cells (R29). -/
abbrev screenCells : Nat := 2048

/-- Entries of the call stack (R6, R25). -/
abbrev stackDepth : Nat := 16

/-- Keypad flags (R6, R28). -/
abbrev nKeys : Nat := 16

/-- Bytes per instruction (R6, R70). -/
abbrev insnBytes : Nat := 2

/-- The byte `RND` draws (R132, D23): FREE, no body. Applied to the number of bytes drawn so far, so each
execution draws its own. DESIGN CHOICE in the form (a function of a counter), safe: notes/assumptions/1.md. -/
opaque rand8 : Nat → Byte

end Sys2Proof.Config
end

