-- ==== Sys2Proof/Syntax.lean ====
section
/-! DEFINITION. The instructions: one constructor per row of spec/opcode_table.json (spec/30_encoding.md rule R74),
in the table's order. An operand has exactly the width of its field (R71, R73), so no operand is out of range. -/

namespace Sys2Proof

/-- The 34 instructions (R74). -/
inductive Instr where
  /-- 00E0 `CLS` (R151). -/
  | cls
  /-- 00EE `RET` (R100). -/
  | ret
  /-- 1nnn `JP nnn` (R101). -/
  | jp (nnn : Imm12)
  /-- 2nnn `CALL nnn` (R102). -/
  | call (nnn : Imm12)
  /-- 3xkk `SE Vx, kk` (R103). -/
  | seImm (x : Reg) (kk : Byte)
  /-- 4xkk `SNE Vx, kk` (R104). -/
  | sneImm (x : Reg) (kk : Byte)
  /-- 5xy0 `SE Vx, Vy` (R105). -/
  | seReg (x y : Reg)
  /-- 6xkk `LD Vx, kk` (R120). -/
  | ldImm (x : Reg) (kk : Byte)
  /-- 7xkk `ADD Vx, kk` (R121). -/
  | addImm (x : Reg) (kk : Byte)
  /-- 8xy0 `LD Vx, Vy` (R122). -/
  | ldReg (x y : Reg)
  /-- 8xy1 `OR Vx, Vy` (R123). -/
  | orReg (x y : Reg)
  /-- 8xy2 `AND Vx, Vy` (R124). -/
  | andReg (x y : Reg)
  /-- 8xy3 `XOR Vx, Vy` (R125). -/
  | xorReg (x y : Reg)
  /-- 8xy4 `ADD Vx, Vy` (R126). -/
  | addReg (x y : Reg)
  /-- 8xy5 `SUB Vx, Vy` (R127). -/
  | subReg (x y : Reg)
  /-- 8xy6 `SHR Vx` (R128); `y` is the field the instruction ignores, kept so that no bit of the word is lost. -/
  | shr (x y : Reg)
  /-- 8xy7 `SUBN Vx, Vy` (R129). -/
  | subnReg (x y : Reg)
  /-- 8xyE `SHL Vx` (R130); `y` as in `shr`. -/
  | shl (x y : Reg)
  /-- 9xy0 `SNE Vx, Vy` (R106). -/
  | sneReg (x y : Reg)
  /-- Annn `LD I, nnn` (R140). -/
  | ldI (nnn : Imm12)
  /-- Bnnn `JP V0, nnn` (R107). -/
  | jpV0 (nnn : Imm12)
  /-- Cxkk `RND Vx, kk` (R132). -/
  | rnd (x : Reg) (kk : Byte)
  /-- Dxyn `DRW Vx, Vy, n` (R152). -/
  | drw (x y : Reg) (n : Nibble)
  /-- Ex9E `SKP Vx` (R163). -/
  | skp (x : Reg)
  /-- ExA1 `SKNP Vx` (R164). -/
  | sknp (x : Reg)
  /-- Fx07 `LD Vx, DT` (R160). -/
  | ldFromDt (x : Reg)
  /-- Fx0A `LD Vx, K` (R165). -/
  | ldKey (x : Reg)
  /-- Fx15 `LD DT, Vx` (R161). -/
  | ldDt (x : Reg)
  /-- Fx18 `LD ST, Vx` (R162). -/
  | ldSt (x : Reg)
  /-- Fx1E `ADD I, Vx` (R141). -/
  | addI (x : Reg)
  /-- Fx29 `LD F, Vx` (R142). -/
  | ldFont (x : Reg)
  /-- Fx33 `LD B, Vx` (R143). -/
  | ldBcd (x : Reg)
  /-- Fx55 `LD [I], Vx` (R144). -/
  | storeRegs (x : Reg)
  /-- Fx65 `LD Vx, [I]` (R145). -/
  | loadRegs (x : Reg)
  deriving DecidableEq, Repr

end Sys2Proof
end

