-- ==== Sys2Proof/WellFormed.lean ====
section
/-! DEFINITION. Well-formedness. The operands of an instruction have the widths of their fields and every field value is
legal (spec/30_encoding.md rule R73), so an instruction carries no check: `Instr.wf` says so constructor by constructor.
The checks of this hardware are the two contracts of the host interface (spec/60_exceptions.md rules R180 and R182). -/

namespace Sys2Proof

/-- Every field value of every instruction is legal (R73: "all 16 values are legal"), so nothing is refused here. A new
constructor must be given its line. -/
def Instr.wf : Instr → Bool
  | .cls | .ret => true
  | .jp _ | .call _ | .ldI _ | .jpV0 _ => true
  | .seImm _ _ | .sneImm _ _ | .ldImm _ _ | .addImm _ _ | .rnd _ _ => true
  | .seReg _ _ | .sneReg _ _ | .ldReg _ _ | .orReg _ _ | .andReg _ _ | .xorReg _ _ => true
  | .addReg _ _ | .subReg _ _ | .shr _ _ | .subnReg _ _ | .shl _ _ => true
  | .drw _ _ _ => true
  | .skp _ | .sknp _ | .ldFromDt _ | .ldKey _ | .ldDt _ | .ldSt _ => true
  | .addI _ | .ldFont _ | .ldBcd _ | .storeRegs _ | .loadRegs _ => true

/-- The contract of `SetKey`: "`index` must be in [0,16)" (R180). -/
def keyIndexOk (index : Nat) : Bool := decide (index < Config.nKeys)

/-- The contract of `Load`: the image fits above the load address (R182). -/
def imageOk (loadAt : Nat) (image : List Byte) : Bool := decide (loadAt + image.length ≤ Config.memSize)

end Sys2Proof
end

