-- ==== Sys2Proof/Decode.lean ====
section
/-! DEFINITION. The decoder (spec/30_encoding.md rules R70 to R76), total on words and on byte lists, and after it the
encoder written from the same table. Bit patterns are the spec's (R74; the spec marks them its decision D4). -/

namespace Sys2Proof

/-- Why bytes are no instruction. The six families are those whose trailing nibbles must match (R75, R76). -/
inductive Undecodable where
  /-- Fewer than two bytes were given to the byte decoder; a fetch never does this (R70, R91). -/
  | tooShort
  /-- `0nnn` other than 00E0 and 00EE (R76, D6). -/
  | family0
  /-- `5xyN` with N not 0 (R76, D7). -/
  | family5
  /-- `8xyN` with N one of 8, 9, A, B, C, D, F (R76). -/
  | family8
  /-- `9xyN` with N not 0 (R76, D7). -/
  | family9
  /-- `Exkk` with kk neither 9E nor A1 (R76). -/
  | familyE
  /-- `Fxkk` with kk not in the list of R75 (R76). -/
  | familyF
  deriving DecidableEq, Repr

/-- The verdict of the decoder (R75): an instruction with its operands, or undecodable. -/
inductive Decoded where
  | instr (i : Instr)
  | illegal (why : Undecodable)
  deriving DecidableEq, Repr

/-- `n1 = w[15:12]` (R71). -/
def nib1 (w : Word) : Nibble := w.extractLsb' 12 4
/-- `n2 = w[11:8]` (R71). -/
def nib2 (w : Word) : Nibble := w.extractLsb' 8 4
/-- `n3 = w[7:4]` (R71). -/
def nib3 (w : Word) : Nibble := w.extractLsb' 4 4
/-- `n4 = w[3:0]` (R71). -/
def nib4 (w : Word) : Nibble := w.extractLsb' 0 4
/-- `kk = w[7:0]` (R71). -/
def immKk (w : Word) : Byte := w.extractLsb' 0 8
/-- `nnn = w[11:0]` (R71). -/
def immNnn (w : Word) : Imm12 := w.extractLsb' 0 12
/-- `x = n2`, a register number (R71). -/
def regX (w : Word) : Reg := (nib2 w).toFin
/-- `y = n3`, a register number (R71). -/
def regY (w : Word) : Reg := (nib3 w).toFin

/-- Family 0x0 (R75): the two whole words. -/
def decode0 (w : Word) : Decoded :=
  if w = 0x00E0#16 then .instr .cls
  else if w = 0x00EE#16 then .instr .ret
  else .illegal .family0

/-- Family 0x8 (R75): `n4` selects the operation. -/
def decode8 (x y : Reg) (n : Nibble) : Decoded :=
  match n with
  | 0x0#4 => .instr (.ldReg x y)
  | 0x1#4 => .instr (.orReg x y)
  | 0x2#4 => .instr (.andReg x y)
  | 0x3#4 => .instr (.xorReg x y)
  | 0x4#4 => .instr (.addReg x y)
  | 0x5#4 => .instr (.subReg x y)
  | 0x6#4 => .instr (.shr x y)
  | 0x7#4 => .instr (.subnReg x y)
  | 0xE#4 => .instr (.shl x y)
  | _ => .illegal .family8

/-- Family 0xE (R75): `kk` selects the test. -/
def decodeE (x : Reg) (kk : Byte) : Decoded :=
  match kk with
  | 0x9E#8 => .instr (.skp x)
  | 0xA1#8 => .instr (.sknp x)
  | _ => .illegal .familyE

/-- Family 0xF (R75): `kk` selects the operation. -/
def decodeF (x : Reg) (kk : Byte) : Decoded :=
  match kk with
  | 0x07#8 => .instr (.ldFromDt x)
  | 0x0A#8 => .instr (.ldKey x)
  | 0x15#8 => .instr (.ldDt x)
  | 0x18#8 => .instr (.ldSt x)
  | 0x1E#8 => .instr (.addI x)
  | 0x29#8 => .instr (.ldFont x)
  | 0x33#8 => .instr (.ldBcd x)
  | 0x55#8 => .instr (.storeRegs x)
  | 0x65#8 => .instr (.loadRegs x)
  | _ => .illegal .familyF

/-- The decoder of R75: a total function of the word alone (R78). The last arm is `n1 = 0xF`. -/
def decode (w : Word) : Decoded :=
  match nib1 w with
  | 0x0#4 => decode0 w
  | 0x1#4 => .instr (.jp (immNnn w))
  | 0x2#4 => .instr (.call (immNnn w))
  | 0x3#4 => .instr (.seImm (regX w) (immKk w))
  | 0x4#4 => .instr (.sneImm (regX w) (immKk w))
  | 0x5#4 => if nib4 w = 0x0#4 then .instr (.seReg (regX w) (regY w)) else .illegal .family5
  | 0x6#4 => .instr (.ldImm (regX w) (immKk w))
  | 0x7#4 => .instr (.addImm (regX w) (immKk w))
  | 0x8#4 => decode8 (regX w) (regY w) (nib4 w)
  | 0x9#4 => if nib4 w = 0x0#4 then .instr (.sneReg (regX w) (regY w)) else .illegal .family9
  | 0xA#4 => .instr (.ldI (immNnn w))
  | 0xB#4 => .instr (.jpV0 (immNnn w))
  | 0xC#4 => .instr (.rnd (regX w) (immKk w))
  | 0xD#4 => .instr (.drw (regX w) (regY w) (nib4 w))
  | 0xE#4 => decodeE (regX w) (immKk w)
  | _ => decodeF (regX w) (immKk w)

/-- The big-endian word of two bytes: the byte at the lower address is the high byte (R52). -/
def wordOfBytes (hi lo : Byte) : Word := hi ++ lo

/-- The byte stored at the lower address (R52). -/
def hiByte (w : Word) : Byte := w.extractLsb' 8 8
/-- The byte stored at the higher address (R52). -/
def loByte (w : Word) : Byte := w.extractLsb' 0 8

/-- A word as memory holds it, the high byte first (R52). -/
def bytesOfWord (w : Word) : List Byte := [hiByte w, loByte w]

/-- The decoder on any list of bytes: the verdict and the bytes left over. -/
def decodeBytes : List Byte → Decoded × List Byte
  | hi :: lo :: rest => (decode (wordOfBytes hi lo), rest)
  | short => (.illegal .tooShort, short)

/-- Format `XKK` (R72): opcode nibble, x, kk. -/
def packXkk (op : Nibble) (x : Reg) (kk : Byte) : Word := op ++ (BitVec.ofFin x ++ kk : BitVec 12)

/-- Formats `XY` and `XYN` (R72): opcode nibble, x, y, and a fixed nibble or n. -/
def packXyn (op : Nibble) (x y : Reg) (n : Nibble) : Word :=
  op ++ (BitVec.ofFin x ++ (BitVec.ofFin y ++ n : BitVec 8) : BitVec 12)

/-- Format `NNN` (R72): opcode nibble and the 12-bit immediate. -/
def packNnn (op : Nibble) (nnn : Imm12) : Word := op ++ nnn

/-- The encoder: each row of R74 as its format packs it. Format `X` is `XKK` with a fixed low byte. -/
def encode : Instr → Word
  | .cls => 0x00E0#16
  | .ret => 0x00EE#16
  | .jp nnn => packNnn 0x1#4 nnn
  | .call nnn => packNnn 0x2#4 nnn
  | .seImm x kk => packXkk 0x3#4 x kk
  | .sneImm x kk => packXkk 0x4#4 x kk
  | .seReg x y => packXyn 0x5#4 x y 0x0#4
  | .ldImm x kk => packXkk 0x6#4 x kk
  | .addImm x kk => packXkk 0x7#4 x kk
  | .ldReg x y => packXyn 0x8#4 x y 0x0#4
  | .orReg x y => packXyn 0x8#4 x y 0x1#4
  | .andReg x y => packXyn 0x8#4 x y 0x2#4
  | .xorReg x y => packXyn 0x8#4 x y 0x3#4
  | .addReg x y => packXyn 0x8#4 x y 0x4#4
  | .subReg x y => packXyn 0x8#4 x y 0x5#4
  | .shr x y => packXyn 0x8#4 x y 0x6#4
  | .subnReg x y => packXyn 0x8#4 x y 0x7#4
  | .shl x y => packXyn 0x8#4 x y 0xE#4
  | .sneReg x y => packXyn 0x9#4 x y 0x0#4
  | .ldI nnn => packNnn 0xA#4 nnn
  | .jpV0 nnn => packNnn 0xB#4 nnn
  | .rnd x kk => packXkk 0xC#4 x kk
  | .drw x y n => packXyn 0xD#4 x y n
  | .skp x => packXkk 0xE#4 x 0x9E#8
  | .sknp x => packXkk 0xE#4 x 0xA1#8
  | .ldFromDt x => packXkk 0xF#4 x 0x07#8
  | .ldKey x => packXkk 0xF#4 x 0x0A#8
  | .ldDt x => packXkk 0xF#4 x 0x15#8
  | .ldSt x => packXkk 0xF#4 x 0x18#8
  | .addI x => packXkk 0xF#4 x 0x1E#8
  | .ldFont x => packXkk 0xF#4 x 0x29#8
  | .ldBcd x => packXkk 0xF#4 x 0x33#8
  | .storeRegs x => packXkk 0xF#4 x 0x55#8
  | .loadRegs x => packXkk 0xF#4 x 0x65#8

/-- A row of the opcode map: a word is the instruction of the row exactly when `w & mask = pattern` (R74). -/
structure OpcodeRow where
  mask : Word
  pattern : Word
  deriving DecidableEq, Repr

/-- The row of the opcode map an instruction stands in (R74). -/
def Instr.row : Instr → OpcodeRow
  | .cls => ⟨0xFFFF#16, 0x00E0#16⟩
  | .ret => ⟨0xFFFF#16, 0x00EE#16⟩
  | .jp _ => ⟨0xF000#16, 0x1000#16⟩
  | .call _ => ⟨0xF000#16, 0x2000#16⟩
  | .seImm _ _ => ⟨0xF000#16, 0x3000#16⟩
  | .sneImm _ _ => ⟨0xF000#16, 0x4000#16⟩
  | .seReg _ _ => ⟨0xF00F#16, 0x5000#16⟩
  | .ldImm _ _ => ⟨0xF000#16, 0x6000#16⟩
  | .addImm _ _ => ⟨0xF000#16, 0x7000#16⟩
  | .ldReg _ _ => ⟨0xF00F#16, 0x8000#16⟩
  | .orReg _ _ => ⟨0xF00F#16, 0x8001#16⟩
  | .andReg _ _ => ⟨0xF00F#16, 0x8002#16⟩
  | .xorReg _ _ => ⟨0xF00F#16, 0x8003#16⟩
  | .addReg _ _ => ⟨0xF00F#16, 0x8004#16⟩
  | .subReg _ _ => ⟨0xF00F#16, 0x8005#16⟩
  | .shr _ _ => ⟨0xF00F#16, 0x8006#16⟩
  | .subnReg _ _ => ⟨0xF00F#16, 0x8007#16⟩
  | .shl _ _ => ⟨0xF00F#16, 0x800E#16⟩
  | .sneReg _ _ => ⟨0xF00F#16, 0x9000#16⟩
  | .ldI _ => ⟨0xF000#16, 0xA000#16⟩
  | .jpV0 _ => ⟨0xF000#16, 0xB000#16⟩
  | .rnd _ _ => ⟨0xF000#16, 0xC000#16⟩
  | .drw _ _ _ => ⟨0xF000#16, 0xD000#16⟩
  | .skp _ => ⟨0xF0FF#16, 0xE09E#16⟩
  | .sknp _ => ⟨0xF0FF#16, 0xE0A1#16⟩
  | .ldFromDt _ => ⟨0xF0FF#16, 0xF007#16⟩
  | .ldKey _ => ⟨0xF0FF#16, 0xF00A#16⟩
  | .ldDt _ => ⟨0xF0FF#16, 0xF015#16⟩
  | .ldSt _ => ⟨0xF0FF#16, 0xF018#16⟩
  | .addI _ => ⟨0xF0FF#16, 0xF01E#16⟩
  | .ldFont _ => ⟨0xF0FF#16, 0xF029#16⟩
  | .ldBcd _ => ⟨0xF0FF#16, 0xF033#16⟩
  | .storeRegs _ => ⟨0xF0FF#16, 0xF055#16⟩
  | .loadRegs _ => ⟨0xF0FF#16, 0xF065#16⟩

/-- The opcode map, 34 rows in the table's order (R74). -/
def opcodeMap : List OpcodeRow :=
  [⟨0xFFFF#16, 0x00E0#16⟩, ⟨0xFFFF#16, 0x00EE#16⟩, ⟨0xF000#16, 0x1000#16⟩, ⟨0xF000#16, 0x2000#16⟩] ++
  [⟨0xF000#16, 0x3000#16⟩, ⟨0xF000#16, 0x4000#16⟩, ⟨0xF00F#16, 0x5000#16⟩, ⟨0xF000#16, 0x6000#16⟩] ++
  [⟨0xF000#16, 0x7000#16⟩, ⟨0xF00F#16, 0x8000#16⟩, ⟨0xF00F#16, 0x8001#16⟩, ⟨0xF00F#16, 0x8002#16⟩] ++
  [⟨0xF00F#16, 0x8003#16⟩, ⟨0xF00F#16, 0x8004#16⟩, ⟨0xF00F#16, 0x8005#16⟩, ⟨0xF00F#16, 0x8006#16⟩] ++
  [⟨0xF00F#16, 0x8007#16⟩, ⟨0xF00F#16, 0x800E#16⟩, ⟨0xF00F#16, 0x9000#16⟩, ⟨0xF000#16, 0xA000#16⟩] ++
  [⟨0xF000#16, 0xB000#16⟩, ⟨0xF000#16, 0xC000#16⟩, ⟨0xF000#16, 0xD000#16⟩, ⟨0xF0FF#16, 0xE09E#16⟩] ++
  [⟨0xF0FF#16, 0xE0A1#16⟩, ⟨0xF0FF#16, 0xF007#16⟩, ⟨0xF0FF#16, 0xF00A#16⟩, ⟨0xF0FF#16, 0xF015#16⟩] ++
  [⟨0xF0FF#16, 0xF018#16⟩, ⟨0xF0FF#16, 0xF01E#16⟩, ⟨0xF0FF#16, 0xF029#16⟩, ⟨0xF0FF#16, 0xF033#16⟩] ++
  [⟨0xF0FF#16, 0xF055#16⟩, ⟨0xF0FF#16, 0xF065#16⟩]

/-- An instruction of the opcode table as memory holds it: its low `nbits` bits, every bit above them 0, high byte first. -/
def tableBytes (nbits w : Nat) : List Byte := bytesOfWord (BitVec.ofNat 16 (w % 2 ^ nbits))

/-- What the decoder reads from the bytes of an instruction whose bits are `w`, numbered as spec/opcode_table.json
numbers them. -/
def decodeTableWord (nbits w : Nat) : Option Instr :=
  match decodeBytes (tableBytes nbits w) with
  | (.instr i, _) => some i
  | (.illegal _, _) => none

end Sys2Proof
end

