-- ==== Sys2Proof/Machine/ResetValues.lean ====
section
/-! DEFINITION. What `Reset` leaves in `pc` and in memory, as constants (spec/10_state.md rules R30, R33, R34;
spec/00_scope.md rule R6). -/

namespace Sys2Proof.Machine

/-- `LOAD_ADDR`: where the image goes and where `pc` starts (R6, R34; the spec's decision D2). -/
abbrev loadAddr : Nat := 0x200

/-- The 80 bytes of the font table, glyph after glyph, five bytes each (R33; the spec's decision D3). -/
def font : List Byte :=
  [0xF0, 0x90, 0x90, 0x90, 0xF0] ++ [0x20, 0x60, 0x20, 0x20, 0x70] ++
  [0xF0, 0x10, 0xF0, 0x80, 0xF0] ++ [0xF0, 0x10, 0xF0, 0x10, 0xF0] ++
  [0x90, 0x90, 0xF0, 0x10, 0x10] ++ [0xF0, 0x80, 0xF0, 0x10, 0xF0] ++
  [0xF0, 0x80, 0xF0, 0x90, 0xF0] ++ [0xF0, 0x10, 0x20, 0x40, 0x40] ++
  [0xF0, 0x90, 0xF0, 0x90, 0xF0] ++ [0xF0, 0x90, 0xF0, 0x10, 0xF0] ++
  [0xF0, 0x90, 0xF0, 0x90, 0x90] ++ [0xE0, 0x90, 0xE0, 0x90, 0xE0] ++
  [0xF0, 0x80, 0x80, 0x80, 0xF0] ++ [0xE0, 0x90, 0x90, 0x90, 0xE0] ++
  [0xF0, 0x80, 0xF0, 0x80, 0xF0] ++ [0xF0, 0x80, 0xF0, 0x80, 0x80]

/-- What a byte of memory that is not listed reads as: the reset contents, `FONT[a]` for 0 to 79 and 0 above (R30). -/
def resetByte (a : Nat) : Byte := font.getD a 0

end Sys2Proof.Machine
end

