-- ==== Sys2Proof/Machine/State.lean ====
section
/-! DEFINITION. The state of the core as plain data (spec/10_state.md rule R20: "exactly these parts and no others"),
its reset value (R34), and the reasons a step or an event can stop. -/

namespace Sys2Proof.Machine

/-- Memory (R30, R50): the bytes that differ from the reset contents, addresses strictly rising and below 4096.
The form is `Memory.wf` (Machine/Ops.lean); an unlisted address reads as `resetByte`. -/
abbrev Memory := List Host.Cell

/-- The framebuffer, a "flat boolean/bit array", row-major: cell `cy * 64 + cx` is bit `cy * 64 + cx` (R29). -/
abbrev Framebuffer := BitVec Config.screenCells

/-- The five fault kinds (R170). Each is a state the machine goes to (R173), not an outcome of `step`. -/
inductive FaultKind where
  /-- The word at `pc` matches no pattern (R76, R93). -/
  | unimplementedOpcode
  /-- `CALL` with sixteen live entries (R102). -/
  | stackOverflow
  /-- `RET` with none (R100). -/
  | stackUnderflow
  /-- A fetch or a data access above address 4095 (R55). -/
  | memoryOutOfBounds
  /-- `SKP` or `SKNP` with a key index above 15 (R163, R164). -/
  | keyIndexOutOfRange
  deriving DecidableEq, Repr

/-- What the fault latch records (R31, R172): the kind, `pc` at the start of the faulting `Tick` (the spec's `at`), and the
word fetched, absent for a fetch fault. -/
structure FaultRecord where
  kind : FaultKind
  addr : Word
  word : Option Word
  deriving DecidableEq, Repr

/-- The state of the core (R20). `draws` is the model's own field. -/
structure State where
  /-- `memory`, 4096 bytes (R30). -/
  mem : Memory
  /-- `V[0]` to `V[15]` (R21); `V[15]` is VF (R22). -/
  v : Vector Byte 16
  /-- `I`, the index register (R24). -/
  i : Word
  /-- `pc`, the address of the next instruction to fetch (R23). -/
  pc : Word
  /-- `stack[0..15]` (R25). -/
  stack : Vector Word 16
  /-- `sp`, the count of live entries, 0 to 16 (R26). -/
  sp : Fin 17
  /-- `key[0..15]`, true while the key is held (R28). -/
  key : Vector Bool 16
  /-- `fb[0..2047]` (R29). -/
  fb : Framebuffer
  /-- `DT`, the delay timer (R27). -/
  dt : Byte
  /-- `ST`, the sound timer (R27). -/
  st : Byte
  /-- The fault latch (R31, R32). -/
  fault : Option FaultRecord
  /-- The number of bytes `RND` has drawn: the model's own counter, the argument of the free value `Config.rand8`
  (R132; DESIGN CHOICE, safe: notes/assumptions/1.md). -/
  draws : Nat
  deriving DecidableEq, Repr

/-- Why a step or an event has no next state. -/
inductive Fault where
  /-- The fault latch is set: `Tick`, `TimerTick`, `SetKey` and `Load` have no step (R32, R173). Raised by `step` and
  `handle`. Safe: the spec says that nothing happens there. -/
  | latched
  deriving DecidableEq, Repr

/-- Why a meaning or an event is refused. -/
inductive Refusal where
  /-- An instruction without a meaning, raised by an arm of `exec` alone. Safe. -/
  | notModelled (mnemonic : String)
  /-- `SetKey` with an index of 16 or more, "outside the contract" (R180). Raised by `setKey`. Safe. -/
  | keyIndexOutsideContract
  /-- `Load` of an image that does not fit, "outside the contract" (R182). Raised by `load`. Safe. -/
  | imageTooLong
  deriving DecidableEq, Repr

/-- The outcome of an instruction or of `Tick`. -/
abbrev Result := Host.Outcome State Fault Refusal

/-- The state right after `Reset` (R34): every part the spec names has its value there. `draws` starts at 0, DESIGN CHOICE
(notes/assumptions/1.md). -/
def State.reset : State where
  mem := []
  v := Vector.replicate 16 0
  i := 0
  pc := BitVec.ofNat 16 loadAddr
  stack := Vector.replicate 16 0
  sp := 0
  key := Vector.replicate 16 false
  fb := 0
  dt := 0
  st := 0
  fault := none
  draws := 0

end Sys2Proof.Machine
end

