-- ==== Sys2Proof/Machine/Ops.lean ====
section
/-! DEFINITION. The named operations over memory, registers, the stack and the devices, fetching an instruction's word,
and taking a fault (spec/00_scope.md rule R9, spec/20_memory.md rules R52 to R58, spec/40_engine.md rules R91, R92, R95,
spec/60_exceptions.md rules R172, R173). -/

namespace Sys2Proof.Machine

/-! ### Memory -/

/-- The byte at `a`: the listed one, else the reset contents. Unchecked: callers check bounds first (R55). -/
def Memory.read : Memory → Nat → Byte
  | [], a => resetByte a
  | (b, u) :: m, a => if b = a then u else Memory.read m a

/-- `m` without an entry for `a`: `a` reads as the reset contents. -/
def Memory.unlist (m : Memory) (a : Nat) : Memory := m.filter fun c => c.1 != a

/-- `m` with an entry for `a` at its place in the order; `a` is not listed in `m`. -/
def Memory.enlist : Memory → Nat → Byte → Memory
  | [], a, u => [(a, u)]
  | (b, t) :: m, a, u => if a < b then (a, u) :: (b, t) :: m else (b, t) :: Memory.enlist m a u

/-- `memory[a] <- u`, keeping the canonical form: a byte equal to the reset contents is not listed. Unchecked. -/
def Memory.write (m : Memory) (a : Nat) (u : Byte) : Memory :=
  if u = resetByte a then m.unlist a else Memory.enlist (m.unlist a) a u

/-- Canonical from `lo` on: addresses strictly rising, at least `lo`, below 4096, and no entry equal to what its address
reads as unlisted. -/
def Memory.wfFrom : Nat → Memory → Bool
  | _, [] => true
  | lo, (a, u) :: m =>
    decide (lo ≤ a) && decide (a < Config.memSize) && decide (u ≠ resetByte a) && Memory.wfFrom (a + 1) m

/-- The canonical form of memory. -/
def Memory.wf (m : Memory) : Bool := Memory.wfFrom 0 m

/-- The bytes at `base`, `base + 1`, …, `n` of them (R57). Unchecked. -/
def Memory.readMany (m : Memory) (base : Nat) : Nat → List Byte
  | 0 => []
  | n + 1 => m.read base :: Memory.readMany m (base + 1) n

/-- The bytes put at `base`, `base + 1`, … in order (R57). Unchecked. -/
def Memory.writeMany (m : Memory) (base : Nat) : List Byte → Memory
  | [] => m
  | u :: us => Memory.writeMany (m.write base u) (base + 1) us

/-- The `n` bytes from `base` on are all in bounds; addresses are natural numbers, never wrapped (R55, D15). No byte, no
check: a draw of no row cannot fault (R152). -/
def spanOk (base n : Nat) : Bool := decide (n = 0 ∨ base + n ≤ Config.memSize)

/-! ### Updates of one part of the state (R9) -/

/-- `pc <- a`. -/
def State.setPc (s : State) (a : Word) : State := { s with pc := a }
/-- `V[r]`. -/
def State.reg (s : State) (r : Reg) : Byte := s.v[r.val]
/-- `V[r] <- u`. -/
def State.setReg (s : State) (r : Reg) (u : Byte) : State := { s with v := s.v.set r.val u }
/-- `I <- a`. -/
def State.setI (s : State) (a : Word) : State := { s with i := a }
/-- The whole of memory replaced. -/
def State.setMem (s : State) (m : Memory) : State := { s with mem := m }
/-- The whole framebuffer replaced. -/
def State.setFb (s : State) (f : Framebuffer) : State := { s with fb := f }
/-- `DT <- u`. -/
def State.setDt (s : State) (u : Byte) : State := { s with dt := u }
/-- `ST <- u`. -/
def State.setSt (s : State) (u : Byte) : State := { s with st := u }
/-- `key[k] <- pressed`. -/
def State.setKeyFlag (s : State) (k : Fin 16) (pressed : Bool) : State := { s with key := s.key.set k.val pressed }

/-- One random byte has been drawn (R132): the next draw is another one. -/
def State.countDraw (s : State) : State := { s with draws := s.draws + 1 }

/-! ### The stack (R25, R26) -/

/-- `stack[sp] <- a; sp <- sp + 1`; `none` when all sixteen entries are live (R102). -/
def State.push (s : State) (a : Word) : Option State :=
  if h : s.sp.val < 16 then some { s with stack := s.stack.set s.sp.val a, sp := ⟨s.sp.val + 1, by omega⟩ }
  else none

/-- `sp <- sp - 1`, with the entry then at `stack[sp]`, which keeps its value (R100, D20); `none` when no entry is live. -/
def State.pop (s : State) : Option (Word × State) :=
  if h : 0 < s.sp.val then
    some (s.stack[s.sp.val - 1], { s with sp := ⟨s.sp.val - 1, by omega⟩ })
  else none

/-! ### Checked memory access (R55, R56) -/

/-- `MemRead(a, 1)`; `none` is the out-of-bounds fault. -/
def State.memRead (s : State) (a : Nat) : Option Byte := if spanOk a 1 then some (s.mem.read a) else none

/-- `MemWrite(a, 1, u)`; `none` is the out-of-bounds fault. -/
def State.memWrite (s : State) (a : Nat) (u : Byte) : Option State :=
  if spanOk a 1 then some (s.setMem (s.mem.write a u)) else none

/-- `n` bytes read from `base` on, all checked before any is read; `none` is the out-of-bounds fault. -/
def State.readBytes (s : State) (base n : Nat) : Option (List Byte) :=
  if spanOk base n then some (s.mem.readMany base n) else none

/-- The bytes written from `base` on, all checked before any is written; `none` is the out-of-bounds fault. -/
def State.writeBytes (s : State) (base : Nat) (us : List Byte) : Option State :=
  if spanOk base us.length then some (s.setMem (s.mem.writeMany base us)) else none

/-! ### Fetch and advance -/

/-- `MemRead(pc, 2)`: the big-endian word at `pc`; `none` when its second byte is above 4095 (R91). -/
def State.fetchWord (s : State) : Option Word :=
  if spanOk s.pc.toNat Config.insnBytes then
    some (wordOfBytes (s.mem.read s.pc.toNat) (s.mem.read (s.pc.toNat + 1)))
  else none

/-- `pc <- a + 2`, before the instruction executes (R92). -/
def State.advance (s : State) : State := s.setPc (s.pc + 2)

/-! ### Taking a fault

There is no handler, no vector and no saved register: the state stays as it was when the `Tick` began, with the latch set
(R173). Nothing returns from a fault (R176); the event `Reset` replaces the whole state. -/

/-- Fault entry (R95, R172, R173) on the state at the start of the `Tick`. -/
def State.takeFault (s : State) (kind : FaultKind) (word : Option Word) : State :=
  { s with fault := some { kind := kind, addr := s.pc, word := word } }

/-- The fault of an instruction's own check: the word recorded is the instruction's (R172). -/
def faultIn (i : Instr) (kind : FaultKind) (s : State) : Result := .next (s.takeFault kind (some (encode i)))

/-- The numeric code of a fault kind (R170, D19). -/
def FaultKind.code : FaultKind → Nat
  | .unimplementedOpcode => 1
  | .stackOverflow => 2
  | .stackUnderflow => 3
  | .memoryOutOfBounds => 4
  | .keyIndexOutOfRange => 5

end Sys2Proof.Machine
end

