-- ==== Sys2Proof/Machine/Flags.lean ====
section
/-! DEFINITION. The flag computations (spec/10_state.md rule R22, spec/42_alu.md rules R126 to R131). The collision flag of
`DRW` is computed with the drawing, in Machine/Display.lean. -/

namespace Sys2Proof.Machine

/-- VF holds 0 or 1 after a flag write (R22). -/
def flagByte (b : Bool) : Byte := if b then 1 else 0

/-- `VF <- flag`. -/
def State.setFlag (s : State) (b : Bool) : State := s.setReg vf (flagByte b)

/-- The unsigned sum exceeded 255 (R126). -/
def carryOut (a b : Byte) : Bool := decide (256 ≤ a.toNat + b.toNat)

/-- No borrow: minuend at least subtrahend (R127). -/
def noBorrow (minuend subtrahend : Byte) : Bool := decide (subtrahend.toNat ≤ minuend.toNat)

/-- The bit a right shift by one shifts out (R128). -/
def lowBit (a : Byte) : Bool := a.getLsbD 0

/-- The bit a left shift by one shifts out (R130). -/
def highBit (a : Byte) : Bool := a.getLsbD 7

/-- Result first, flag second: with `x` = VF the flag remains (R131, D11). -/
def State.setResultThenFlag (s : State) (x : Reg) (result : Byte) (flag : Bool) : State :=
  (s.setReg x result).setFlag flag

/-- Flag first, then the register as it stands is shifted: with `x` = VF the flag itself is shifted (R128, R130, D11). -/
def State.setFlagThenShift (s : State) (x : Reg) (flag : Bool) (shift : Byte → Byte) : State :=
  (s.setFlag flag).setReg x (shift ((s.setFlag flag).reg x))

end Sys2Proof.Machine
end

