-- ==== Sys2Proof/Machine/Operands.lean ====
section
/-! DEFINITION. The operand forms: immediates zero-extended (spec/30_encoding.md rule R73), the block V0 to Vx, the key
index in a register, the glyph address, the decimal digits, and the skip. -/

namespace Sys2Proof.Machine

/-- `nnn` as a 16-bit value, zero-extended (R73, R140). -/
def zextImm (nnn : Imm12) : Word := nnn.setWidth 16

/-- A register's byte as a 16-bit value, zero-extended (R9, R107, R141). -/
def zextByte (u : Byte) : Word := u.setWidth 16

/-- `V[0]` to `V[x]`, in order (R144). -/
def State.firstRegs (s : State) (x : Reg) : List Byte := s.v.toList.take (x.val + 1)

/-- The registers with entries `k`, `k+1`, … replaced by the bytes in order. -/
def fillFrom (v : Vector Byte 16) (k : Nat) : List Byte → Vector Byte 16
  | [] => v
  | u :: us => fillFrom (v.set (Fin.ofNat 16 k).val u) (k + 1) us

/-- `V[0]`, `V[1]`, … loaded from the bytes in order, at most sixteen of them (R145). -/
def State.fillRegs (s : State) (us : List Byte) : State := { s with v := fillFrom s.v 0 us }

/-- The key index held in `V[x]`; `none` when it is above 15 (R163, D16). -/
def State.keyIndex (s : State) (x : Reg) : Option (Fin 16) :=
  if h : (s.reg x).toNat < 16 then some ⟨(s.reg x).toNat, h⟩ else none

/-- The least pressed key, if any (R165: "in index order"). -/
def State.firstKey (s : State) : Option (Fin 16) := (List.finRange 16).find? fun k => s.key[k.val]

/-- `5 * (u & 0x0F)`, the address of the glyph of a hexadecimal digit (R142). -/
def glyphAddress (u : Byte) : Word := BitVec.ofNat 16 (5 * (u.toNat % 16))

/-- The hundreds, tens and ones digits of a byte, one byte each (R143). -/
def bcdDigits (u : Byte) : List Byte :=
  [BitVec.ofNat 8 (u.toNat / 100), BitVec.ofNat 8 (u.toNat / 10 % 10), BitVec.ofNat 8 (u.toNat % 10)]

/-- `if c then pc <- pc + 2`, on the advanced `pc` (R103). -/
def State.skipIf (s : State) (c : Bool) : State := if c then s.setPc (s.pc + 2) else s

end Sys2Proof.Machine
end

