-- ==== Sys2Proof/Machine/Alu.lean ====
section
/-! DEFINITION. Register moves, arithmetic, logic, shifts and random (spec/42_alu.md rules R120 to R132). `BitVec 8`
addition and subtraction wrap modulo 256 (R131); sources are read before any write, but for the shifts (D11). -/

namespace Sys2Proof.Machine

/-- `LD Vx, kk` (R120). -/
def execLdImm (x : Reg) (kk : Byte) (s : State) : Result := .next (s.advance.setReg x kk)

/-- `ADD Vx, kk` (R121): no flag. -/
def execAddImm (x : Reg) (kk : Byte) (s : State) : Result := .next (s.advance.setReg x (s.reg x + kk))

/-- `LD Vx, Vy` (R122). -/
def execLdReg (x y : Reg) (s : State) : Result := .next (s.advance.setReg x (s.reg y))

/-- `OR Vx, Vy` (R123): VF unchanged (D9). -/
def execOrReg (x y : Reg) (s : State) : Result := .next (s.advance.setReg x (s.reg x ||| s.reg y))

/-- `AND Vx, Vy` (R124): VF unchanged (D9). -/
def execAndReg (x y : Reg) (s : State) : Result := .next (s.advance.setReg x (s.reg x &&& s.reg y))

/-- `XOR Vx, Vy` (R125): VF unchanged (D9). -/
def execXorReg (x y : Reg) (s : State) : Result := .next (s.advance.setReg x (s.reg x ^^^ s.reg y))

/-- `ADD Vx, Vy` (R126). -/
def execAddReg (x y : Reg) (s : State) : Result :=
  .next (s.advance.setResultThenFlag x (s.reg x + s.reg y) (carryOut (s.reg x) (s.reg y)))

/-- `SUB Vx, Vy` (R127). -/
def execSubReg (x y : Reg) (s : State) : Result :=
  .next (s.advance.setResultThenFlag x (s.reg x - s.reg y) (noBorrow (s.reg x) (s.reg y)))

/-- `SHR Vx` (R128): `V[x]` in place, the `y` field ignored (D10). -/
def execShr (x : Reg) (s : State) : Result :=
  .next (s.advance.setFlagThenShift x (lowBit (s.reg x)) fun u => u >>> 1)

/-- `SUBN Vx, Vy` (R129, C5, D12): `V[y] - V[x]` into `V[x]`. -/
def execSubnReg (x y : Reg) (s : State) : Result :=
  .next (s.advance.setResultThenFlag x (s.reg y - s.reg x) (noBorrow (s.reg y) (s.reg x)))

/-- `SHL Vx` (R130): `V[x]` in place, the `y` field ignored (D10). -/
def execShl (x : Reg) (s : State) : Result :=
  .next (s.advance.setFlagThenShift x (highBit (s.reg x)) fun u => u <<< 1)

/-- `RND Vx, kk` (R132): one fresh free byte, AND the mask. -/
def execRnd (x : Reg) (kk : Byte) (s : State) : Result :=
  .next (s.advance.countDraw.setReg x (Config.rand8 s.draws &&& kk))

end Sys2Proof.Machine
end

