-- ==== Sys2Proof/Machine/ControlFlow.lean ====
section
/-! DEFINITION. The control-flow instructions (spec/41_control_flow.md rules R100 to R107). A meaning takes the state at
the start of the `Tick`, `pc` at the instruction's own address `a`, and runs on the advanced state (R92). -/

namespace Sys2Proof.Machine

/-- `RET` (R100). -/
def execRet (s : State) : Result :=
  match s.advance.pop with
  | none => faultIn .ret .stackUnderflow s
  | some (a, t) => .next (t.setPc a)

/-- `JP nnn` (R101). -/
def execJp (nnn : Imm12) (s : State) : Result := .next (s.advance.setPc (zextImm nnn))

/-- `CALL nnn` (R102): the advanced `pc` is pushed. -/
def execCall (nnn : Imm12) (s : State) : Result :=
  match s.advance.push s.advance.pc with
  | none => faultIn (.call nnn) .stackOverflow s
  | some t => .next (t.setPc (zextImm nnn))

/-- `SE Vx, kk` (R103). -/
def execSeImm (x : Reg) (kk : Byte) (s : State) : Result := .next (s.advance.skipIf (s.reg x == kk))

/-- `SNE Vx, kk` (R104). -/
def execSneImm (x : Reg) (kk : Byte) (s : State) : Result := .next (s.advance.skipIf (s.reg x != kk))

/-- `SE Vx, Vy` (R105). -/
def execSeReg (x y : Reg) (s : State) : Result := .next (s.advance.skipIf (s.reg x == s.reg y))

/-- `SNE Vx, Vy` (R106). -/
def execSneReg (x y : Reg) (s : State) : Result := .next (s.advance.skipIf (s.reg x != s.reg y))

/-- `JP V0, nnn` (R107): the sum is not masked (D27); it is at most 0x10FE, so 16 bits hold it. -/
def execJpV0 (nnn : Imm12) (s : State) : Result := .next (s.advance.setPc (zextByte (s.reg 0) + zextImm nnn))

end Sys2Proof.Machine
end

