-- ==== Sys2Proof/Machine/Display.lean ====
section
/-! DEFINITION. The display instructions (spec/44_display.md rules R150 to R152). -/

namespace Sys2Proof.Machine

/-- The cell of the pixel at column `cx`, row `cy` (R150). -/
def cellOf (cx cy : Nat) : Nat := cy * Config.screenW + cx

/-- `fb[k]` (R9); false above the last cell. -/
def State.cell (s : State) (k : Nat) : Bool := s.fb.getLsbD k

/-- `fb[k] <- not fb[k]`. -/
def toggleCell (f : Framebuffer) (k : Nat) : Framebuffer := f ^^^ BitVec.twoPow Config.screenCells k

/-- One sprite bit: column `col`, row `row` of the sprite whose origin is (`ox`, `oy`); both coordinates wrap, the row by a
true modulo (R152, C2). The pair is the framebuffer and the collision so far. -/
def drawBit (ox oy row : Nat) (u : Byte) (c : Framebuffer × Bool) (col : Nat) : Framebuffer × Bool :=
  if u.getLsbD (7 - col) then
    let k := cellOf ((ox + col) % Config.screenW) ((oy + row) % Config.screenH)
    (toggleCell c.1 k, c.2 || c.1.getLsbD k)
  else c

/-- One sprite byte, a row of eight columns, bit 7 leftmost (R150). -/
def drawRow (ox oy row : Nat) (u : Byte) (c : Framebuffer × Bool) : Framebuffer × Bool :=
  [0, 1, 2, 3, 4, 5, 6, 7].foldl (drawBit ox oy row u) c

/-- The sprite's bytes from row `row` on, the first byte the top row (R150). -/
def drawRows (ox oy : Nat) : Nat → List Byte → Framebuffer × Bool → Framebuffer × Bool
  | _, [], c => c
  | row, u :: us, c => drawRows ox oy (row + 1) us (drawRow ox oy row u c)

/-- `CLS` (R151). -/
def execCls (s : State) : Result := .next (s.advance.setFb 0)

/-- `DRW Vx, Vy, n` (R152): the origin is read before VF is written (D17). -/
def execDrw (x y : Reg) (n : Nibble) (s : State) : Result :=
  match s.readBytes s.i.toNat n.toNat with
  | none => faultIn (.drw x y n) .memoryOutOfBounds s
  | some sprite =>
    let c := drawRows (s.reg x).toNat (s.reg y).toNat 0 sprite (s.fb, false)
    .next ((s.advance.setFb c.1).setFlag c.2)

end Sys2Proof.Machine
end

