-- ==== Sys2Proof/Machine/MemoryIndex.lean ====
section
/-! DEFINITION. The index register, the font, BCD and the bulk transfers (spec/43_memory_index.md rules R140 to R145).
Every byte of an access is checked before any is touched (R55); `I` is never changed by an access (D14). -/

namespace Sys2Proof.Machine

/-- `LD I, nnn` (R140). -/
def execLdI (nnn : Imm12) (s : State) : Result := .next (s.advance.setI (zextImm nnn))

/-- `ADD I, Vx` (R141): modulo 65536, no flag (D13). -/
def execAddI (x : Reg) (s : State) : Result := .next (s.advance.setI (s.i + zextByte (s.reg x)))

/-- `LD F, Vx` (R142). -/
def execLdFont (x : Reg) (s : State) : Result := .next (s.advance.setI (glyphAddress (s.reg x)))

/-- `LD B, Vx` (R143). -/
def execLdBcd (x : Reg) (s : State) : Result :=
  match s.advance.writeBytes s.i.toNat (bcdDigits (s.reg x)) with
  | none => faultIn (.ldBcd x) .memoryOutOfBounds s
  | some t => .next t

/-- `LD [I], Vx` (R144, C1). -/
def execStoreRegs (x : Reg) (s : State) : Result :=
  match s.advance.writeBytes s.i.toNat (s.firstRegs x) with
  | none => faultIn (.storeRegs x) .memoryOutOfBounds s
  | some t => .next t

/-- `LD Vx, [I]` (R145, C1). -/
def execLoadRegs (x : Reg) (s : State) : Result :=
  match s.readBytes s.i.toNat (x.val + 1) with
  | none => faultIn (.loadRegs x) .memoryOutOfBounds s
  | some us => .next (s.advance.fillRegs us)

end Sys2Proof.Machine
end

