-- ==== Sys2Proof/Machine/TimersInput.lean ====
section
/-! DEFINITION. The timer and keypad instructions (spec/45_timers_input.md rules R160 to R165). -/

namespace Sys2Proof.Machine

/-- `LD Vx, DT` (R160). -/
def execLdFromDt (x : Reg) (s : State) : Result := .next (s.advance.setReg x s.dt)

/-- `LD DT, Vx` (R161). -/
def execLdDt (x : Reg) (s : State) : Result := .next (s.advance.setDt (s.reg x))

/-- `LD ST, Vx` (R162): emits nothing. -/
def execLdSt (x : Reg) (s : State) : Result := .next (s.advance.setSt (s.reg x))

/-- `SKP Vx` (R163). -/
def execSkp (x : Reg) (s : State) : Result :=
  match s.keyIndex x with
  | none => faultIn (.skp x) .keyIndexOutOfRange s
  | some k => .next (s.advance.skipIf s.key[k.val])

/-- `SKNP Vx` (R164). -/
def execSknp (x : Reg) (s : State) : Result :=
  match s.keyIndex x with
  | none => faultIn (.sknp x) .keyIndexOutOfRange s
  | some k => .next (s.advance.skipIf (!s.key[k.val]))

/-- `LD Vx, K` (R165): with no key down, `pc` goes back to the instruction. -/
def execLdKey (x : Reg) (s : State) : Result :=
  match s.firstKey with
  | some k => .next (s.advance.setReg x (BitVec.ofNat 8 k.val))
  | none => .next (s.advance.setPc (s.advance.pc - 2))

end Sys2Proof.Machine
end

