-- ==== Sys2Proof/Machine/Fetch.lean ====
section
/-! DEFINITION. The body of a `Tick` around `exec` (spec/40_engine.md rules R90 to R95), and the store that stands for
loading one instruction. -/

namespace Sys2Proof.Machine

/-- A fetched word decoded and run, or the fault of an undecodable word (R93). -/
def runWord (w : Word) (s : State) : Result :=
  match decode w with
  | .instr i => exec i s
  | .illegal _ => .next (s.takeFault .unimplementedOpcode (some w))

/-- `Tick` on a state whose latch is clear (R90): fetch, then decode and execute; a fetch above 4094 faults with no word (R91). -/
def tickBody (s : State) : Result :=
  match s.fetchWord with
  | none => .next (s.takeFault .memoryOutOfBounds none)
  | some w => runWord w s

/-- The bytes stored where the next fetch reads them, at `pc` and after. -/
def State.placeAtPc (s : State) (us : List Byte) : State := s.setMem (s.mem.writeMany s.pc.toNat us)

end Sys2Proof.Machine
end

