-- ==== Sys2Proof/Machine/Step.lean ====
section
/-! DEFINITION. One step of the machine: the event `Tick` (spec/40_engine.md rule R90). The other events of the driver are in
Machine/Events.lean. -/

namespace Sys2Proof.Machine

/-- `Tick`. While the latch is set it has no step (spec/10_state.md rule R32, spec/60_exceptions.md rule R173). -/
def step (s : State) : Host.Outcome State Fault Refusal :=
  match s.fault with
  | some _ => .fault .latched
  | none => tickBody s

/-- `s` with the instruction whose bits are `w` (numbered as the opcode table numbers them) stored where `step` fetches its
next instruction. It stands for the `Load` of a program (notes/assumptions/3.md). -/
def State.withFetchWord (s : State) (nbits w : Nat) : State := s.placeAtPc (tableBytes nbits w)

end Sys2Proof.Machine
end

