-- ==== Sys2Proof/Machine/Events.lean ====
section
/-! DEFINITION. The driver's events (spec/00_scope.md rule R10, spec/60_exceptions.md rules R178 to R184,
spec/70_reset_and_hazards.md rule R200). `Tick` is `step`. One event at a time, each run to its end (R61). -/

namespace Sys2Proof.Machine

/-- The events of R10. -/
inductive Event where
  | reset
  | load (image : List Byte)
  | setKey (index : Nat) (pressed : Bool)
  | tick
  | timerTick
  | getDisplay
  deriving DecidableEq, Repr

/-- What an event gives back to the driver; never part of the state (R37, D22). -/
inductive Output where
  /-- The tone event (R179). -/
  | tone
  /-- The 2048 cells, row-major (R181). -/
  | display (cells : List Bool)
  /-- A `Tick` faulted: "surfaced to the external driver as a distinguishable failure" (R173). -/
  | faulted (r : FaultRecord)
  deriving DecidableEq, Repr

/-- The outcome of an event: the next state with the outputs, or no step, or refused. -/
abbrev Response := Host.Outcome (State × List Output) Fault Refusal

/-- `require fault = None`: while the latch is set the event has no step (R32, R173). -/
def whenLive (s : State) (r : Response) : Response :=
  match s.fault with
  | some _ => .fault .latched
  | none => r

/-- `Reset` (R34, R200): enabled in every state. The counter of random draws is no part of the machine the spec resets, so
it goes on: a byte drawn after a `Reset` is another free one (DESIGN CHOICE, safe: notes/assumptions/2.md). -/
def resetEvent (s : State) : State := { State.reset with draws := s.draws }

/-- `Load(image)` (R182, D28). The refusal comes before the latch (DESIGN CHOICE, safe: notes/assumptions/4.md). -/
def load (image : List Byte) (s : State) : Response :=
  if imageOk loadAddr image then whenLive s (.next (s.setMem (s.mem.writeMany loadAddr image), []))
  else .refused .imageTooLong

/-- `SetKey(index, pressed)` (R180). The refusal comes before the latch (DESIGN CHOICE, safe: notes/assumptions/4.md). -/
def setKey (index : Nat) (pressed : Bool) (s : State) : Response :=
  if keyIndexOk index then whenLive s (.next (s.setKeyFlag (Fin.ofNat 16 index) pressed, []))
  else .refused .keyIndexOutsideContract

/-- A timer saturates at zero (R178). -/
def agedTimer (u : Byte) : Byte := if u = 0 then 0 else u - 1

/-- `TimerTick` (R178): both timers, and `Tone` when the sound timer goes from 1 to 0 (R179). -/
def timerTick (s : State) : Response :=
  whenLive s (.next ((s.setDt (agedTimer s.dt)).setSt (agedTimer s.st), if s.st = 1 then [.tone] else []))

/-- The framebuffer as the driver reads it (R181). -/
def State.cells (s : State) : List Bool := (List.range Config.screenCells).map fun k => s.fb.getLsbD k

/-- `Tick` with its result: the fault, if it raised one (R173). -/
def tickEvent (s : State) : Response :=
  match step s with
  | .next t => .next (t, (t.fault.map Output.faulted).toList)
  | .fault f => .fault f
  | .refused r => .refused r

/-- One event (R10). -/
def handle (e : Event) (s : State) : Response :=
  match e with
  | .reset => .next (resetEvent s, [])
  | .load image => load image s
  | .setKey index pressed => setKey index pressed s
  | .tick => tickEvent s
  | .timerTick => timerTick s
  | .getDisplay => .next (s, [.display s.cells])

/-- Events one after another, the outputs in order; it ends at the first event without a next state. -/
def handleAll : List Event → State → Response
  | [], s => .next (s, [])
  | e :: es, s =>
    match handle e s with
    | .next (t, out) =>
      match handleAll es t with
      | .next (u, more) => .next (u, out ++ more)
      | .fault f => .fault f
      | .refused r => .refused r
    | .fault f => .fault f
    | .refused r => .refused r

end Sys2Proof.Machine
end

