-- ==== Sys2Proof/Safety.lean ====
section
/-! DEFINITION. The terms claims are made in: the parts of the state and what "unchanged" means, the faults the spec's table
gives, the invariant of every run, and the end of a run. Nothing of the machine calls these. -/

namespace Sys2Proof.Machine

/-! ### Parts of the state (spec/10_state.md rule R20), the general registers apart -/

/-- The parts of the state other than the general registers. -/
inductive Part where
  | memory | index | pc | stack | sp | keypad | framebuffer | delayTimer | soundTimer | latch | draws
  deriving DecidableEq, Repr

/-- The part is the same in both states. Memory is compared byte by byte, through the checked read (R56). -/
def Part.same (s t : State) : Part → Prop
  | .memory => ∀ a, t.memRead a = s.memRead a
  | .index => t.i = s.i
  | .pc => t.pc = s.pc
  | .stack => t.stack = s.stack
  | .sp => t.sp = s.sp
  | .keypad => t.key = s.key
  | .framebuffer => t.fb = s.fb
  | .delayTimer => t.dt = s.dt
  | .soundTimer => t.st = s.st
  | .latch => t.fault = s.fault
  | .draws => t.draws = s.draws

/-- The frame of a step from `s` to `t`: every part but those listed and every general register but those listed is
unchanged. -/
def OnlyChanges (parts : List Part) (regs : List Reg) (s t : State) : Prop :=
  (∀ p, p ∉ parts → p.same s t) ∧ ∀ r, r ∉ regs → t.reg r = s.reg r

/-- The general registers an instruction writes: its destination, and VF where it is the flag output (R21, R22). -/
def writtenRegs : Instr → List Reg
  | .ldImm x _ | .addImm x _ | .rnd x _ | .ldFromDt x | .ldKey x => [x]
  | .ldReg x _ | .orReg x _ | .andReg x _ | .xorReg x _ => [x]
  | .addReg x _ | .subReg x _ | .subnReg x _ | .shr x _ | .shl x _ => [x, vf]
  | .drw _ _ _ => [vf]
  | .loadRegs x => (List.finRange 16).filter (· ≤ x)
  | .cls | .ret | .jp _ | .call _ | .jpV0 _ | .ldI _ => []
  | .seImm _ _ | .sneImm _ _ | .seReg _ _ | .sneReg _ _ | .skp _ | .sknp _ => []
  | .ldDt _ | .ldSt _ | .addI _ | .ldFont _ | .ldBcd _ | .storeRegs _ => []

/-! ### Faults -/

/-- The instruction's own check that fails on the state at the start of the `Tick`, as the table of R171 gives it
(spec/60_exceptions.md); an instruction not in the table raises no fault of its own. -/
def ownFault (s : State) : Instr → Option FaultKind
  | .call _ => if s.sp.val = 16 then some .stackOverflow else none
  | .ret => if s.sp.val = 0 then some .stackUnderflow else none
  | .drw _ _ n => if 0 < n.toNat ∧ 4095 < s.i.toNat + n.toNat - 1 then some .memoryOutOfBounds else none
  | .ldBcd _ => if 4095 < s.i.toNat + 2 then some .memoryOutOfBounds else none
  | .storeRegs x => if 4095 < s.i.toNat + x.val then some .memoryOutOfBounds else none
  | .loadRegs x => if 4095 < s.i.toNat + x.val then some .memoryOutOfBounds else none
  | .skp x => if 15 < (s.reg x).toNat then some .keyIndexOutOfRange else none
  | .sknp x => if 15 < (s.reg x).toNat then some .keyIndexOutOfRange else none
  | .cls | .jp _ | .seImm _ _ | .sneImm _ _ | .seReg _ _ | .ldImm _ _ | .addImm _ _ | .ldReg _ _ | .orReg _ _
  | .andReg _ _ | .xorReg _ _ | .addReg _ _ | .subReg _ _ | .shr _ _ | .subnReg _ _ | .shl _ _ | .sneReg _ _
  | .ldI _ | .jpV0 _ | .rnd _ _ | .ldFromDt _ | .ldKey _ | .ldDt _ | .ldSt _ | .addI _ | .ldFont _ => none

/-- The big-endian word of the two bytes at `a` and `a + 1`, as a number (R52). -/
def wordNumberAt (s : State) (a : Nat) : Nat := (s.mem.read a).toNat * 256 + (s.mem.read (a + 1)).toNat

/-- The fault a `Tick` on `s` raises, by the table of R171 in the order of R174: fetch, decode, own check. -/
def tickFault (s : State) : Option FaultRecord :=
  if 4095 ≤ s.pc.toNat then some ⟨.memoryOutOfBounds, s.pc, none⟩
  else
    let w : Word := BitVec.ofNat 16 (wordNumberAt s s.pc.toNat)
    match decode w with
    | .illegal _ => some ⟨.unimplementedOpcode, s.pc, some w⟩
    | .instr i => (ownFault s i).map fun k => ⟨k, s.pc, some w⟩

/-- `exec i` on `s` takes the fault `k`: a next state that is `s` with the latch set to the kind, the instruction's
address and its word (R172, R173). -/
def FaultsWith (i : Instr) (s : State) (k : FaultKind) : Prop :=
  exec i s = .next { s with fault := some ⟨k, s.pc, some (encode i)⟩ }

/-! ### Encodings -/

/-- `n` is the number of the instruction's word: the encoder writes it and the decoder reads the instruction from it. -/
def EncodedAs (i : Instr) (n : Nat) : Prop := (encode i).toNat = n ∧ decode (BitVec.ofNat 16 n) = .instr i

/-! ### Sprites -/

/-- Some set bit of the sprite of `n` bytes at `I`, drawn from the origin (`V[x]`, `V[y]`), lands on column `cx`, row `cy`
(R150, R152): bit 7 is column 0, the column wraps modulo 64 and the row modulo 32. -/
def SpriteCovers (s : State) (x y : Reg) (n : Nibble) (cx cy : Nat) : Prop :=
  ∃ row < n.toNat, ∃ col < 8, (s.mem.read (s.i.toNat + row)).getLsbD (7 - col) = true ∧
    ((s.reg x).toNat + col) % 64 = cx ∧ ((s.reg y).toNat + row) % 32 = cy

/-! ### The invariant -/

/-- Every live stack entry is an address a `CALL` pushed: 2 to 4096 (R100, R102). -/
def StackSane (s : State) : Prop := ∀ k : Fin 16, k.val < s.sp.val → 2 ≤ s.stack[k.val].toNat ∧ s.stack[k.val].toNat ≤ 4096

/-- The latch, when set, describes the frozen state: its address is `pc` and its word is the word at `pc`, absent exactly
when a fetch there is out of bounds (R172, R173). -/
def LatchPrecise (s : State) : Prop :=
  ∀ r, s.fault = some r → r.addr = s.pc ∧ r.word = s.fetchWord

/-- What holds in every run: memory canonical, `pc` at most 0x10FE (R23), the stack sane, the latch precise. -/
structure Inv (s : State) : Prop where
  memory : s.mem.wf = true
  pc : s.pc.toNat ≤ 0x10FE
  stack : StackSane s
  latch : LatchPrecise s

/-- Some sequence of the driver's events leads from reset to `s` (R10, R183). -/
def Reachable (s : State) : Prop := ∃ es out, handleAll es State.reset = .next (s, out)

/-! ### The end of a run -/

/-- The end-of-run convention of R208: a `JP a` at its own address `a`, in a state that is not faulted ("A faulted state is
never the end of a successful run", R173). A function of the state; it stops nothing. -/
def State.finished (s : State) : Bool :=
  s.fault.isNone && decide (s.pc.toNat < Config.memSize) && decide (s.fetchWord = some (encode (.jp (s.pc.setWidth 12))))

end Sys2Proof.Machine
end

