-- ==== Sys2Proof/Certificates/Slice0/Obligations.lean ====
section
/-! DEFINITION. The statements for the provers, from the numbered rules of spec/. Each docstring cites the rules it
formalises; the model's own conventions a statement rests on are named in OBLIGATIONS.json with their log entry. -/

open Sys2Proof Sys2Proof.Machine

/-- Decoding the encoded word of any instruction gives it back (R71, R74, R75). -/
def Obligations.DecodeOfEncodedInstruction : Prop :=
    ∀ i : Instr, decode (encode i) = .instr i

/-- Encoding what a word decodes to gives the word back (R71, R74, R75). -/
def Obligations.EncodeOfDecodedWord : Prop :=
    ∀ (w : Word) (i : Instr), decode w = .instr i → encode i = w

/-- A word decodes to an instruction of a row exactly when word AND mask equals match (R74, R75). -/
def Obligations.DecoderIsTheOpcodeMap : Prop :=
    ∀ (w : Word) (r : OpcodeRow), r ∈ opcodeMap →
    (w &&& r.mask = r.pattern ↔ ∃ i, decode w = .instr i ∧ i.row = r)

/-- The undecodable words are exactly the listed ones, and executing one faults with UnimplementedOpcode (R76). -/
def Obligations.UndecodableWordsAreExactlyTheListed : Prop :=
    (∀ w : Word, (∃ e, decode w = .illegal e) ↔
      (w.toNat / 4096 = 0 ∧ w.toNat ≠ 0x00E0 ∧ w.toNat ≠ 0x00EE) ∨
      ((w.toNat / 4096 = 5 ∨ w.toNat / 4096 = 9) ∧ w.toNat % 16 ≠ 0) ∨
      (w.toNat / 4096 = 8 ∧ w.toNat % 16 ∈ [8, 9, 0xA, 0xB, 0xC, 0xD, 0xF]) ∨
      (w.toNat / 4096 = 0xE ∧ w.toNat % 256 ∉ [0x9E, 0xA1]) ∨
      (w.toNat / 4096 = 0xF ∧ w.toNat % 256 ∉ [0x07, 0x0A, 0x15, 0x18, 0x1E, 0x29, 0x33, 0x55, 0x65])) ∧
    ∀ (s : State) (w : Word) (e : Undecodable), s.fault = none → s.fetchWord = some w → decode w = .illegal e →
      step s = .next { s with fault := some ⟨.unimplementedOpcode, s.pc, some w⟩ }

/-- Words written out from the encoding table decode to the instructions they stand for (R70, R71, R74, R75, R81). -/
def Obligations.SampleWordsDecode : Prop :=
    decode 0x6005#16 = .instr (.ldImm 0 5) ∧ decode 0x6103#16 = .instr (.ldImm 1 3) ∧
    decode 0x8014#16 = .instr (.addReg 0 1) ∧ decode 0x00E0#16 = .instr .cls ∧ decode 0x00EE#16 = .instr .ret ∧
    decode 0x1201#16 = .instr (.jp 0x201#12) ∧ decode 0x2ABC#16 = .instr (.call 0xABC#12) ∧
    decode 0x3F01#16 = .instr (.seImm 15 0x01#8) ∧ decode 0x4008#16 = .instr (.sneImm 0 0x08#8) ∧
    decode 0x5120#16 = .instr (.seReg 1 2) ∧ decode 0x71FF#16 = .instr (.addImm 1 0xFF#8) ∧
    decode 0x812E#16 = .instr (.shl 1 2) ∧ decode 0x9120#16 = .instr (.sneReg 1 2) ∧
    decode 0xA123#16 = .instr (.ldI 0x123#12) ∧ decode 0xB300#16 = .instr (.jpV0 0x300#12) ∧
    decode 0xC30F#16 = .instr (.rnd 3 0x0F#8) ∧ decode 0xD125#16 = .instr (.drw 1 2 5#4) ∧
    decode 0xE1A1#16 = .instr (.sknp 1) ∧ decode 0xF165#16 = .instr (.loadRegs 1) ∧
    decode 0x00E1#16 = .illegal .family0 ∧ decode 0x5121#16 = .illegal .family5 ∧
    decode 0x8128#16 = .illegal .family8 ∧ decode 0x9121#16 = .illegal .family9 ∧
    decode 0xE19F#16 = .illegal .familyE ∧ decode 0xF175#16 = .illegal .familyF

/-- A Tick is exec of the instruction its two bytes decode to (R52, R90, R93). -/
def Obligations.TickRunsTheDecodedInstruction : Prop :=
    ∀ (s : State) (i : Instr), s.fault = none → s.pc.toNat ≤ 4094 →
      decode (BitVec.ofNat 16 (wordNumberAt s s.pc.toNat)) = .instr i → step s = exec i s

/-- Fetch reads the big-endian word at any pc up to 4094 and faults above (R91). -/
def Obligations.FetchReadsTheBigEndianWordOrFaults : Prop :=
    (∀ s : State, s.pc.toNat ≤ 4094 → ∃ w : Word, s.fetchWord = some w ∧ w.toNat = wordNumberAt s s.pc.toNat) ∧
    ∀ s : State, s.fault = none → 4095 ≤ s.pc.toNat →
      step s = .next { s with fault := some ⟨.memoryOutOfBounds, s.pc, none⟩ }

/-- Every Tick has one outcome: the fault the table names, reported to the driver and nothing else changed, or no fault (R95, R171, R172, R173, R174). -/
def Obligations.TickFaultsExactlyByTheTable : Prop :=
    (∀ s : State, s.fault = none → ∃ t, step s = .next t ∧ t.fault = tickFault s ∧
      handle .tick s = .next (t, (tickFault s).elim [] fun r => [.faulted r]) ∧
      ∀ r, tickFault s = some r → t = { s with fault := some r } ∧ t.finished = false) ∧
    (∀ (e : Event) (s t : State) (out : List Output), e ≠ .tick → handle e s = .next (t, out) →
      t.fault = none ∨ t.fault = s.fault) ∧
    ∀ (e : Event) (s t : State) (out : List Output), s.fault ≠ none → handle e s = .next (t, out) →
      e = .reset ∨ e = .getDisplay

/-- The latch: clear after Reset, set only by a Tick, cleared only by Reset, and while set only Reset and GetDisplay go on (R32). -/
def Obligations.LatchedMachineHasOnlyResetAndDisplay : Prop :=
    (∀ s : State, ∃ t, handle .reset s = .next (t, []) ∧ t.fault = none) ∧
    (∀ (e : Event) (s t : State) (out : List Output), handle e s = .next (t, out) →
      (s.fault = none → t.fault ≠ none → e = .tick) ∧ (s.fault ≠ none → t.fault = none → e = .reset)) ∧
    (∀ (e : Event) (s : State), s.fault ≠ none →
      ((∃ t out, handle e s = .next (t, out)) ↔ e = .reset ∨ e = .getDisplay)) ∧
    ∀ (i : Instr) (s t : State) (f : Option FaultRecord), ownFault s i = none → exec i s = .next t →
      t.fault = s.fault ∧ exec i { s with fault := f } = .next { t with fault := f }

/-- No instruction but RND depends on the random source, which is the model's own counter of draws (log 1) (R97, R132, R37, log 1). -/
def Obligations.OnlyRandomReadsTheDraw : Prop :=
    ∀ (i : Instr) (s : State) (d : Nat), (∀ x kk, i ≠ .rnd x kk) →
      ∃ t, exec i s = .next t ∧ t.draws = s.draws ∧ exec i { s with draws := d } = .next { t with draws := d }

/-- Each part of the state is written only by the instructions the spec names for it; the counter of draws is the model's own (log 1) (R21, R22, R23, R24, R25, R26, R27, R28, R29, R32, R50, log 1). -/
def Obligations.InstructionsWriteOnlyTheirParts : Prop :=
    ∀ (i : Instr) (s t : State), exec i s = .next t →
      (∀ r, t.reg r ≠ s.reg r → r ∈ writtenRegs i) ∧
      (ownFault s i = none → t.fault = s.fault ∧ (t.pc ≠ s.pc + 2 →
        i = .ret ∨ (∃ nnn, i = .jp nnn ∨ i = .call nnn ∨ i = .jpV0 nnn) ∨ (∃ x, i = .ldKey x ∧ t.pc = s.pc) ∨
        t.pc = s.pc + 4 ∧ ((∃ x kk, i = .seImm x kk ∨ i = .sneImm x kk) ∨
          (∃ x y, i = .seReg x y ∨ i = .sneReg x y) ∨ ∃ x, i = .skp x ∨ i = .sknp x))) ∧
      (∀ k, ownFault s i = some k → t = { s with fault := some ⟨k, s.pc, some (encode i)⟩ }) ∧
      t.key = s.key ∧
      (t.stack ≠ s.stack → ∃ nnn, i = .call nnn) ∧
      (t.sp ≠ s.sp → i = .ret ∨ ∃ nnn, i = .call nnn) ∧
      (t.i ≠ s.i → (∃ nnn, i = .ldI nnn) ∨ ∃ x, i = .addI x ∨ i = .ldFont x) ∧
      (t.dt ≠ s.dt → ∃ x, i = .ldDt x) ∧
      (t.st ≠ s.st → ∃ x, i = .ldSt x) ∧
      (t.fb ≠ s.fb → i = .cls ∨ ∃ x y n, i = .drw x y n) ∧
      ((∃ a, t.memRead a ≠ s.memRead a) → ∃ x, i = .ldBcd x ∨ i = .storeRegs x) ∧
      (t.draws ≠ s.draws → ∃ x kk, i = .rnd x kk)

/-- VF changes only by the five flag-setting ALU forms, by DRW, or as the named destination (R22). -/
def Obligations.FlagRegisterWrittenOnlyByFlagInstructions : Prop :=
    ∀ (i : Instr) (s t : State), exec i s = .next t → t.reg 15 ≠ s.reg 15 →
      (∃ x y, i = .addReg x y ∨ i = .subReg x y ∨ i = .subnReg x y ∨ i = .shr x y ∨ i = .shl x y) ∨
      (∃ x y n, i = .drw x y n) ∨
      (∃ kk, i = .ldImm 15 kk ∨ i = .addImm 15 kk ∨ i = .rnd 15 kk) ∨
      (∃ y, i = .ldReg 15 y ∨ i = .orReg 15 y ∨ i = .andReg 15 y ∨ i = .xorReg 15 y) ∨
      i = .ldFromDt 15 ∨ i = .ldKey 15 ∨ i = .loadRegs 15

/-- Every instruction but a jump, call, return, skip or key wait leaves pc at a + 2 when its own check passes (R23, R92). -/
def Obligations.OtherInstructionsGoToTheNextAddress : Prop :=
    ∀ (i : Instr) (s : State), ownFault s i = none → i ≠ .ret →
      (∀ nnn, i ≠ .jp nnn ∧ i ≠ .call nnn ∧ i ≠ .jpV0 nnn) →
      (∀ x kk, i ≠ .seImm x kk ∧ i ≠ .sneImm x kk) → (∀ x y, i ≠ .seReg x y ∧ i ≠ .sneReg x y) →
      (∀ x, i ≠ .skp x ∧ i ≠ .sknp x ∧ i ≠ .ldKey x) →
      ∃ t, exec i s = .next t ∧ t.pc = s.pc + 2

/-- RET pops the return address into pc, or faults on an empty stack (R100). -/
def Obligations.ReturnPopsTheReturnAddress : Prop :=
    EncodedAs .ret 0x00EE ∧
    (∀ s : State, 0 < s.sp.val → ∃ t, exec .ret s = .next t ∧ t.sp.val + 1 = s.sp.val ∧
      s.stack[t.sp.val]? = some t.pc ∧ OnlyChanges [.pc, .sp] [] s t ∧
      (StackSane s → 2 ≤ t.pc.toNat ∧ t.pc.toNat ≤ 4096) ∧
      (4094 < t.pc.toNat → t.fault = none →
        step t = .next { t with fault := some ⟨.memoryOutOfBounds, t.pc, none⟩ })) ∧
    ∀ s : State, s.sp.val = 0 → FaultsWith .ret s .stackUnderflow

/-- JP nnn sets pc to nnn and nothing else (R101). -/
def Obligations.JumpSetsPc : Prop :=
    ∀ (nnn : Imm12) (s : State), EncodedAs (.jp nnn) (0x1000 + nnn.toNat) ∧
      ∃ t, exec (.jp nnn) s = .next t ∧ t.pc.toNat = nnn.toNat ∧ OnlyChanges [.pc] [] s t ∧
        (nnn.toNat = 4095 → t.fault = none →
          step t = .next { t with fault := some ⟨.memoryOutOfBounds, 4095, none⟩ }) ∧
        (s.pc.toNat = nnn.toNat → t = s)

/-- CALL pushes a + 2 and jumps, or faults on a full stack (R102). -/
def Obligations.CallPushesTheAdvancedPc : Prop :=
    ∀ (nnn : Imm12) (s : State), EncodedAs (.call nnn) (0x2000 + nnn.toNat) ∧
      (s.sp.val < 16 → ∃ t, exec (.call nnn) s = .next t ∧ t.stack[s.sp.val]? = some (s.pc + 2) ∧
        (∀ k : Fin 16, k.val ≠ s.sp.val → t.stack[k.val] = s.stack[k.val]) ∧
        t.sp.val = s.sp.val + 1 ∧ t.pc.toNat = nnn.toNat ∧ OnlyChanges [.pc, .stack, .sp] [] s t) ∧
      (s.sp.val = 16 → FaultsWith (.call nnn) s .stackOverflow)

/-- A CALL and the matching RET come back to the instruction after the CALL with sp as it was (R100, R102). -/
def Obligations.CallThenReturnResumesAfterTheCall : Prop :=
    ∀ (nnn : Imm12) (s : State), s.sp.val < 16 →
      ∃ t u, exec (.call nnn) s = .next t ∧ exec .ret t = .next u ∧ u.pc = s.pc + 2 ∧ u.sp = s.sp ∧
        OnlyChanges [.pc, .stack] [] s u

/-- The four comparing skips leave pc at a + 4 when their condition holds, else at a + 2, and change nothing else (R103, R104, R105, R106). -/
def Obligations.SkipsCompareAndSkipOneWord : Prop :=
    ∀ (x y : Reg) (kk : Byte) (s : State),
      EncodedAs (.seImm x kk) (0x3000 + 256 * x.val + kk.toNat) ∧
      EncodedAs (.sneImm x kk) (0x4000 + 256 * x.val + kk.toNat) ∧
      EncodedAs (.seReg x y) (0x5000 + 256 * x.val + 16 * y.val) ∧
      EncodedAs (.sneReg x y) (0x9000 + 256 * x.val + 16 * y.val) ∧
      (∃ t, exec (.seImm x kk) s = .next t ∧ OnlyChanges [.pc] [] s t ∧
        t.pc = if (s.reg x).toNat = kk.toNat then s.pc + 4 else s.pc + 2) ∧
      (∃ t, exec (.sneImm x kk) s = .next t ∧ OnlyChanges [.pc] [] s t ∧
        t.pc = if (s.reg x).toNat ≠ kk.toNat then s.pc + 4 else s.pc + 2) ∧
      (∃ t, exec (.seReg x y) s = .next t ∧ OnlyChanges [.pc] [] s t ∧
        t.pc = if (s.reg x).toNat = (s.reg y).toNat then s.pc + 4 else s.pc + 2) ∧
      ∃ t, exec (.sneReg x y) s = .next t ∧ OnlyChanges [.pc] [] s t ∧
        t.pc = if (s.reg x).toNat ≠ (s.reg y).toNat then s.pc + 4 else s.pc + 2

/-- JP V0, nnn sets pc to V0 + nnn, unmasked, and nothing else (R107). -/
def Obligations.JumpWithOffsetAddsV0Unmasked : Prop :=
    ∀ (nnn : Imm12) (s : State), EncodedAs (.jpV0 nnn) (0xB000 + nnn.toNat) ∧
      ∃ t, exec (.jpV0 nnn) s = .next t ∧ t.pc.toNat = (s.reg 0).toNat + nnn.toNat ∧ t.pc.toNat ≤ 0x10FE ∧
        OnlyChanges [.pc] [] s t ∧
        (4094 < (s.reg 0).toNat + nnn.toNat → t.fault = none →
          step t = .next { t with fault := some ⟨.memoryOutOfBounds, t.pc, none⟩ })

/-- LD Vx, kk and LD Vx, Vy write the destination register only (R120, R122). -/
def Obligations.LoadsAndCopyWriteTheDestination : Prop :=
    ∀ (x y : Reg) (kk : Byte) (s : State),
      EncodedAs (.ldImm x kk) (0x6000 + 256 * x.val + kk.toNat) ∧
      EncodedAs (.ldReg x y) (0x8000 + 256 * x.val + 16 * y.val) ∧
      (∃ t, exec (.ldImm x kk) s = .next t ∧ t.reg x = kk ∧ t.pc = s.pc + 2 ∧ OnlyChanges [.pc] [x] s t) ∧
      ∃ t, exec (.ldReg x y) s = .next t ∧ t.reg x = s.reg y ∧ t.pc = s.pc + 2 ∧ OnlyChanges [.pc] [x] s t

/-- ADD Vx, kk adds modulo 256 and leaves VF alone unless it is the destination (R121). -/
def Obligations.AddImmediateWrapsWithoutFlag : Prop :=
    ∀ (x : Reg) (kk : Byte) (s : State), EncodedAs (.addImm x kk) (0x7000 + 256 * x.val + kk.toNat) ∧
      ∃ t, exec (.addImm x kk) s = .next t ∧ (t.reg x).toNat = ((s.reg x).toNat + kk.toNat) % 256 ∧
        t.pc = s.pc + 2 ∧ OnlyChanges [.pc] [x] s t

/-- OR, AND and XOR write V[x] bit by bit and no flag (R123, R124, R125). -/
def Obligations.LogicOperationsLeaveVfAlone : Prop :=
    ∀ (x y : Reg) (s : State),
      EncodedAs (.orReg x y) (0x8001 + 256 * x.val + 16 * y.val) ∧
      EncodedAs (.andReg x y) (0x8002 + 256 * x.val + 16 * y.val) ∧
      EncodedAs (.xorReg x y) (0x8003 + 256 * x.val + 16 * y.val) ∧
      (∃ t, exec (.orReg x y) s = .next t ∧ t.pc = s.pc + 2 ∧ OnlyChanges [.pc] [x] s t ∧
        ∀ k < 8, (t.reg x).getLsbD k = ((s.reg x).getLsbD k || (s.reg y).getLsbD k)) ∧
      (∃ t, exec (.andReg x y) s = .next t ∧ t.pc = s.pc + 2 ∧ OnlyChanges [.pc] [x] s t ∧
        ∀ k < 8, (t.reg x).getLsbD k = ((s.reg x).getLsbD k && (s.reg y).getLsbD k)) ∧
      ∃ t, exec (.xorReg x y) s = .next t ∧ t.pc = s.pc + 2 ∧ OnlyChanges [.pc] [x] s t ∧
        ∀ k < 8, (t.reg x).getLsbD k = ((s.reg x).getLsbD k != (s.reg y).getLsbD k)

/-- ADD Vx, Vy writes the sum modulo 256 and VF the carry, the flag last (R126). -/
def Obligations.AddRegistersSetsCarry : Prop :=
    ∀ (x y : Reg) (s : State), EncodedAs (.addReg x y) (0x8004 + 256 * x.val + 16 * y.val) ∧
      ∃ t, exec (.addReg x y) s = .next t ∧
        (t.reg 15).toNat = (if 256 ≤ (s.reg x).toNat + (s.reg y).toNat then 1 else 0) ∧
        (x ≠ 15 → (t.reg x).toNat = ((s.reg x).toNat + (s.reg y).toNat) % 256) ∧
        t.pc = s.pc + 2 ∧ OnlyChanges [.pc] [x, 15] s t

/-- SUB and SUBN write the difference modulo 256 and VF = 1 when there is no borrow, the flag last (R127, R129). -/
def Obligations.SubtractSetsNotBorrow : Prop :=
    ∀ (x y : Reg) (s : State),
      EncodedAs (.subReg x y) (0x8005 + 256 * x.val + 16 * y.val) ∧
      EncodedAs (.subnReg x y) (0x8007 + 256 * x.val + 16 * y.val) ∧
      (∃ t, exec (.subReg x y) s = .next t ∧
        (t.reg 15).toNat = (if (s.reg y).toNat ≤ (s.reg x).toNat then 1 else 0) ∧
        (x ≠ 15 → (t.reg x).toNat = ((s.reg x).toNat + 256 - (s.reg y).toNat) % 256) ∧
        t.pc = s.pc + 2 ∧ OnlyChanges [.pc] [x, 15] s t) ∧
      ∃ t, exec (.subnReg x y) s = .next t ∧
        (t.reg 15).toNat = (if (s.reg x).toNat ≤ (s.reg y).toNat then 1 else 0) ∧
        (x ≠ 15 → (t.reg x).toNat = ((s.reg y).toNat + 256 - (s.reg x).toNat) % 256) ∧
        t.pc = s.pc + 2 ∧ OnlyChanges [.pc] [x, 15] s t

/-- SHR Vx halves V[x] in place, VF takes the old bit 0; with x = 0xF VF ends 0; y is ignored (R128). -/
def Obligations.ShiftRightFlagsTheLowBit : Prop :=
    ∀ (x y : Reg) (s : State), EncodedAs (.shr x y) (0x8006 + 256 * x.val + 16 * y.val) ∧
      ∃ t, exec (.shr x y) s = .next t ∧
        (x ≠ 15 → (t.reg x).toNat = (s.reg x).toNat / 2 ∧ (t.reg 15).toNat = (s.reg x).toNat % 2) ∧
        (x = 15 → t.reg 15 = 0) ∧ t.pc = s.pc + 2 ∧ OnlyChanges [.pc] [x, 15] s t

/-- SHL Vx doubles V[x] modulo 256 in place, VF takes the old bit 7; with x = 0xF VF ends 2 or 0; y is ignored (R130). -/
def Obligations.ShiftLeftFlagsTheHighBit : Prop :=
    ∀ (x y : Reg) (s : State), EncodedAs (.shl x y) (0x800E + 256 * x.val + 16 * y.val) ∧
      ∃ t, exec (.shl x y) s = .next t ∧
        (x ≠ 15 → (t.reg x).toNat = 2 * (s.reg x).toNat % 256 ∧ (t.reg 15).toNat = (s.reg x).toNat / 128) ∧
        (x = 15 → (t.reg 15).toNat = if 128 ≤ (s.reg 15).toNat then 2 else 0) ∧
        t.pc = s.pc + 2 ∧ OnlyChanges [.pc] [x, 15] s t

/-- SHL then SHR gives back the low seven bits; the flag SHL captured is the lost bit 7 (R128, R130). -/
def Obligations.ShiftLeftThenRightRestoresSevenBits : Prop :=
    ∀ (x y z : Reg) (s : State), x ≠ 15 →
      ∃ t u, exec (.shl x y) s = .next t ∧ exec (.shr x z) t = .next u ∧
        (u.reg x).toNat = (s.reg x).toNat % 128 ∧ (u.reg 15).toNat = 0 ∧
        (t.reg 15).toNat * 128 + (u.reg x).toNat = (s.reg x).toNat

/-- RND Vx, kk puts one fresh free byte AND kk into V[x]; the byte is rand8 of the model's own counter of draws (log 1) (R132, log 1). -/
def Obligations.RandomDrawsOneFreshByteUnderTheMask : Prop :=
    ∀ (x : Reg) (kk : Byte) (s : State), EncodedAs (.rnd x kk) (0xC000 + 256 * x.val + kk.toNat) ∧
      ∃ t, exec (.rnd x kk) s = .next t ∧ t.reg x = Config.rand8 s.draws &&& kk ∧ t.reg x &&& ~~~kk = 0 ∧
        t.draws = s.draws + 1 ∧ t.pc = s.pc + 2 ∧ OnlyChanges [.pc, .draws] [x] s t

/-- LD I, ADD I and LD F write I only: nnn, the sum modulo 65536, five times the low nibble (R140, R141, R142). -/
def Obligations.IndexInstructionsWriteI : Prop :=
    ∀ (x : Reg) (nnn : Imm12) (s : State),
      EncodedAs (.ldI nnn) (0xA000 + nnn.toNat) ∧ EncodedAs (.addI x) (0xF01E + 256 * x.val) ∧
      EncodedAs (.ldFont x) (0xF029 + 256 * x.val) ∧
      (∃ t, exec (.ldI nnn) s = .next t ∧ t.i.toNat = nnn.toNat ∧ t.pc = s.pc + 2 ∧
        OnlyChanges [.pc, .index] [] s t) ∧
      (∃ t, exec (.addI x) s = .next t ∧ t.i.toNat = (s.i.toNat + (s.reg x).toNat) % 65536 ∧ t.pc = s.pc + 2 ∧
        OnlyChanges [.pc, .index] [] s t) ∧
      ∃ t, exec (.ldFont x) s = .next t ∧ t.i.toNat = 5 * ((s.reg x).toNat % 16) ∧ t.pc = s.pc + 2 ∧
        OnlyChanges [.pc, .index] [] s t

/-- LD B, Vx stores the hundreds, tens and ones digits at I, I+1, I+2, or faults with nothing written (R143). -/
def Obligations.BcdStoresThreeDigits : Prop :=
    ∀ (x : Reg) (s : State), EncodedAs (.ldBcd x) (0xF033 + 256 * x.val) ∧
      (s.i.toNat + 2 ≤ 4095 → ∃ t, exec (.ldBcd x) s = .next t ∧
        t.memRead s.i.toNat = some (BitVec.ofNat 8 ((s.reg x).toNat / 100)) ∧
        t.memRead (s.i.toNat + 1) = some (BitVec.ofNat 8 ((s.reg x).toNat / 10 % 10)) ∧
        t.memRead (s.i.toNat + 2) = some (BitVec.ofNat 8 ((s.reg x).toNat % 10)) ∧
        (∀ a, a < s.i.toNat ∨ s.i.toNat + 2 < a → t.memRead a = s.memRead a) ∧
        t.pc = s.pc + 2 ∧ OnlyChanges [.pc, .memory] [] s t) ∧
      (4095 < s.i.toNat + 2 → FaultsWith (.ldBcd x) s .memoryOutOfBounds)

/-- LD [I], Vx stores V0 to Vx at I on, I unchanged, or faults with nothing written (R144). -/
def Obligations.BulkStoreWritesRegistersZeroToX : Prop :=
    ∀ (x : Reg) (s : State), EncodedAs (.storeRegs x) (0xF055 + 256 * x.val) ∧
      (s.i.toNat + x.val ≤ 4095 → ∃ t, exec (.storeRegs x) s = .next t ∧
        (∀ k : Reg, k ≤ x → t.memRead (s.i.toNat + k.val) = some (s.reg k)) ∧
        (∀ a, a < s.i.toNat ∨ s.i.toNat + x.val < a → t.memRead a = s.memRead a) ∧
        t.pc = s.pc + 2 ∧ OnlyChanges [.pc, .memory] [] s t) ∧
      (4095 < s.i.toNat + x.val → FaultsWith (.storeRegs x) s .memoryOutOfBounds)

/-- LD Vx, [I] loads V0 to Vx from I on, or faults with no register written (R145). -/
def Obligations.BulkLoadReadsRegistersZeroToX : Prop :=
    ∀ (x : Reg) (s : State), EncodedAs (.loadRegs x) (0xF065 + 256 * x.val) ∧
      (s.i.toNat + x.val ≤ 4095 → ∃ t, exec (.loadRegs x) s = .next t ∧
        (∀ k : Reg, k ≤ x → s.memRead (s.i.toNat + k.val) = some (t.reg k)) ∧
        t.pc = s.pc + 2 ∧ OnlyChanges [.pc] ((List.finRange 16).filter (· ≤ x)) s t) ∧
      (4095 < s.i.toNat + x.val → FaultsWith (.loadRegs x) s .memoryOutOfBounds)

/-- MemRead and MemWrite: bounds at 4095, a read gives the latest write, no other byte changes; a two-byte read is big-endian (R56). -/
def Obligations.MemoryPrimitivesReadTheLatestWrite : Prop :=
    ∀ (s : State) (a : Nat) (u : Byte),
      (s.memRead a = none ↔ 4095 < a) ∧ (s.memWrite a u = none ↔ 4095 < a) ∧
      (a ≤ 4095 → ∃ t, s.memWrite a u = some t ∧ t.memRead a = some u ∧
        (∀ b, b ≠ a → t.memRead b = s.memRead b) ∧ OnlyChanges [.memory] [] s t) ∧
      (∀ hi lo, s.memRead s.pc.toNat = some hi → s.memRead (s.pc.toNat + 1) = some lo →
        s.fetchWord = some (BitVec.ofNat 16 (hi.toNat * 256 + lo.toNat))) ∧
      (s.memRead (s.pc.toNat + 1) = none → s.fetchWord = none)

/-- A word stored by LD [I], Vx is what the very next fetch from there reads (R64, R144). -/
def Obligations.FetchSeesABulkStoreAtOnce : Prop :=
    ∀ (x k : Reg) (s : State), s.i.toNat + x.val ≤ 4095 → ∀ h : k.val + 1 ≤ x.val,
      (s.pc + 2).toNat = s.i.toNat + k.val →
      ∃ t, exec (.storeRegs x) s = .next t ∧
        t.fetchWord = some (BitVec.ofNat 16 ((s.reg k).toNat * 256 + (s.reg ⟨k.val + 1, by omega⟩).toNat))

/-- CLS sets every cell false and changes nothing else but pc (R151). -/
def Obligations.ClearScreenClearsEveryCell : Prop :=
    EncodedAs .cls 0x00E0 ∧ ∀ s : State, ∃ t, exec .cls s = .next t ∧ (∀ k < 2048, t.cell k = false) ∧
      t.pc = s.pc + 2 ∧ OnlyChanges [.pc, .framebuffer] [] s t

/-- DRW toggles exactly the pixels the sprite's set bits land on, both coordinates wrapping, and VF is the collision (R152). -/
def Obligations.DrawTogglesExactlyTheSpritePixels : Prop :=
    ∀ (x y : Reg) (n : Nibble) (s : State), EncodedAs (.drw x y n) (0xD000 + 256 * x.val + 16 * y.val + n.toNat) ∧
      (n.toNat = 0 ∨ s.i.toNat + n.toNat - 1 ≤ 4095 → ∃ t, exec (.drw x y n) s = .next t ∧
        (∀ cx < 64, ∀ cy < 32, (t.cell (cy * 64 + cx) ≠ s.cell (cy * 64 + cx) ↔ SpriteCovers s x y n cx cy)) ∧
        (t.reg 15 = 0 ∨ t.reg 15 = 1) ∧
        (t.reg 15 = 1 ↔ ∃ cx < 64, ∃ cy < 32, s.cell (cy * 64 + cx) = true ∧ SpriteCovers s x y n cx cy) ∧
        t.pc = s.pc + 2 ∧ OnlyChanges [.pc, .framebuffer] [15] s t ∧
        (x ≠ 15 → y ≠ 15 → ∃ u, exec (.drw x y n) t = .next u ∧ u.fb = s.fb ∧
          ((∀ k < 2048, s.cell k = false) →
            (u.reg 15 = 1 ↔ ∃ row < n.toNat, s.mem.read (s.i.toNat + row) ≠ 0) ∧ t.reg 15 = 0))) ∧
      (0 < n.toNat ∧ 4095 < s.i.toNat + n.toNat - 1 → FaultsWith (.drw x y n) s .memoryOutOfBounds)

/-- The five fault kinds have the codes 1 to 5, all different (R170). -/
def Obligations.FaultCodesTellTheKindsApart : Prop :=
    FaultKind.code .unimplementedOpcode = 1 ∧ FaultKind.code .stackOverflow = 2 ∧
    FaultKind.code .stackUnderflow = 3 ∧ FaultKind.code .memoryOutOfBounds = 4 ∧
    FaultKind.code .keyIndexOutOfRange = 5 ∧ ∀ j k : FaultKind, j.code = k.code → j = k

/-- LD Vx,DT, LD DT,Vx and LD ST,Vx copy one byte and change nothing else (R160, R161, R162). -/
def Obligations.TimerMovesCopyTheByte : Prop :=
    ∀ (x : Reg) (s : State), EncodedAs (.ldFromDt x) (0xF007 + 256 * x.val) ∧
      EncodedAs (.ldDt x) (0xF015 + 256 * x.val) ∧ EncodedAs (.ldSt x) (0xF018 + 256 * x.val) ∧
      (∃ t, exec (.ldFromDt x) s = .next t ∧ t.reg x = s.dt ∧ t.pc = s.pc + 2 ∧ OnlyChanges [.pc] [x] s t) ∧
      (∃ t, exec (.ldDt x) s = .next t ∧ t.dt = s.reg x ∧ t.pc = s.pc + 2 ∧
        OnlyChanges [.pc, .delayTimer] [] s t) ∧
      (∃ t, exec (.ldSt x) s = .next t ∧ t.st = s.reg x ∧ t.pc = s.pc + 2 ∧
        OnlyChanges [.pc, .soundTimer] [] s t) ∧
      ∀ t out, handle .tick s = .next (t, out) → .tone ∉ out

/-- SKP and SKNP skip by the state of key V[x], and fault when V[x] is above 15 (R163, R164). -/
def Obligations.KeySkipsTestTheKeyLevel : Prop :=
    ∀ (x : Reg) (s : State), EncodedAs (.skp x) (0xE09E + 256 * x.val) ∧ EncodedAs (.sknp x) (0xE0A1 + 256 * x.val) ∧
      (∀ k : Fin 16, (s.reg x).toNat = k.val →
        (∃ t, exec (.skp x) s = .next t ∧ OnlyChanges [.pc] [] s t ∧
          t.pc = if s.key[k.val] = true then s.pc + 4 else s.pc + 2) ∧
        ∃ t, exec (.sknp x) s = .next t ∧ OnlyChanges [.pc] [] s t ∧
          t.pc = if s.key[k.val] = false then s.pc + 4 else s.pc + 2) ∧
      (15 < (s.reg x).toNat →
        FaultsWith (.skp x) s .keyIndexOutOfRange ∧ FaultsWith (.sknp x) s .keyIndexOutOfRange)

/-- LD Vx, K takes the least pressed key, or completes with the whole state unchanged (R165). -/
def Obligations.KeyWaitTakesTheLeastPressedKey : Prop :=
    ∀ (x : Reg) (s : State), EncodedAs (.ldKey x) (0xF00A + 256 * x.val) ∧
      (∀ k : Fin 16, s.key[k.val] = true → (∀ j : Fin 16, j < k → s.key[j.val] = false) →
        ∃ t, exec (.ldKey x) s = .next t ∧ (t.reg x).toNat = k.val ∧ t.pc = s.pc + 2 ∧
          OnlyChanges [.pc] [x] s t) ∧
      ((∀ k : Fin 16, s.key[k.val] = false) → exec (.ldKey x) s = .next s)

/-- TimerTick decrements both timers to a floor of zero and emits the tone exactly when ST goes from 1 to 0 (R178, R179). -/
def Obligations.TimerTickAgesBothTimers : Prop :=
    (∀ s : State, s.fault = none → ∃ t out, handle .timerTick s = .next (t, out) ∧
      t.dt.toNat = s.dt.toNat - 1 ∧ t.st.toNat = s.st.toNat - 1 ∧
      OnlyChanges [.delayTimer, .soundTimer] [] s t ∧ out = if s.st.toNat = 1 then [.tone] else []) ∧
    (∀ s : State, s.fault ≠ none → handle .timerTick s = .fault .latched) ∧
    ∀ (e : Event) (s t : State) (out : List Output), handle e s = .next (t, out) → .tone ∈ out →
      e = .timerTick ∧ s.st.toNat = 1

/-- SetKey writes one keypad flag; an index of 16 or more is refused (R180). -/
def Obligations.SetKeyWritesOneFlag : Prop :=
    (∀ (s : State) (k : Fin 16) (b : Bool), s.fault = none →
      ∃ t, handle (.setKey k.val b) s = .next (t, []) ∧ t.key[k.val] = b ∧
        (∀ j : Fin 16, j ≠ k → t.key[j.val] = s.key[j.val]) ∧ OnlyChanges [.keypad] [] s t ∧
        (s.key[k.val] = b → t = s)) ∧
    (∀ (s : State) (k : Nat) (b : Bool), s.fault = none → 16 ≤ k →
      handle (.setKey k b) s = .refused .keyIndexOutsideContract) ∧
    ∀ (s : State) (k : Fin 16) (b : Bool), s.fault ≠ none → handle (.setKey k.val b) s = .fault .latched

/-- Load copies the image to 0x200 on and changes nothing else; an image over 3584 bytes is refused (R182). -/
def Obligations.LoadCopiesTheImage : Prop :=
    (∀ (s : State) (image : List Byte), s.fault = none → image.length ≤ 3584 →
      ∃ t, handle (.load image) s = .next (t, []) ∧
        (∀ (k : Nat) (u : Byte), image[k]? = some u → t.memRead (0x200 + k) = some u) ∧
        (∀ a, a < 0x200 ∨ 0x200 + image.length ≤ a → t.memRead a = s.memRead a) ∧
        OnlyChanges [.memory] [] s t) ∧
    (∀ (s : State) (image : List Byte), s.fault = none → 3584 < image.length →
      handle (.load image) s = .refused .imageTooLong) ∧
    ∀ (s : State) (image : List Byte), s.fault ≠ none → image.length ≤ 3584 →
      handle (.load image) s = .fault .latched

/-- GetDisplay gives the 2048 cells row-major in every state and changes nothing (R181). -/
def Obligations.GetDisplayReturnsTheCells : Prop :=
    ∀ s : State, ∃ cells : List Bool, handle .getDisplay s = .next (s, [.display cells]) ∧ cells.length = 2048 ∧
      ∀ cx < 64, ∀ cy < 32, cells[cy * 64 + cx]? = some (s.cell (cy * 64 + cx))

/-- Reset puts every part the spec names to its reset value, in every state (R34, R200). -/
def Obligations.ResetPutsEveryPartToItsValue : Prop :=
    ∀ s : State, ∃ t, handle .reset s = .next (t, []) ∧ t.pc.toNat = 0x200 ∧
      (∀ a < 80, ∃ u, t.memRead a = some u ∧ [0xF0, 0x90, 0x90, 0x90, 0xF0, 0x20, 0x60, 0x20, 0x20, 0x70,
        0xF0, 0x10, 0xF0, 0x80, 0xF0, 0xF0, 0x10, 0xF0, 0x10, 0xF0, 0x90, 0x90, 0xF0, 0x10, 0x10,
        0xF0, 0x80, 0xF0, 0x10, 0xF0, 0xF0, 0x80, 0xF0, 0x90, 0xF0, 0xF0, 0x10, 0x20, 0x40, 0x40,
        0xF0, 0x90, 0xF0, 0x90, 0xF0, 0xF0, 0x90, 0xF0, 0x10, 0xF0, 0xF0, 0x90, 0xF0, 0x90, 0x90,
        0xE0, 0x90, 0xE0, 0x90, 0xE0, 0xF0, 0x80, 0x80, 0x80, 0xF0, 0xE0, 0x90, 0x90, 0x90, 0xE0,
        0xF0, 0x80, 0xF0, 0x80, 0xF0, 0xF0, 0x80, 0xF0, 0x80, 0x80][a]? = some u.toNat) ∧
      (∀ a, 80 ≤ a → a ≤ 4095 → t.memRead a = some 0) ∧ (∀ r, t.reg r = 0) ∧ t.i = 0 ∧
      (∀ k : Fin 16, t.stack[k.val] = 0) ∧ t.sp = 0 ∧ t.dt = 0 ∧ t.st = 0 ∧ (∀ k : Fin 16, t.key[k.val] = false) ∧
      (∀ k < 2048, t.cell k = false) ∧ t.fault = none

/-- With nothing loaded the first Tick after reset faults with UnimplementedOpcode on 0x0000 at 0x200 (R202, R76). -/
def Obligations.FirstTickAfterResetFaults : Prop :=
    step State.reset = .next { State.reset with fault := some ⟨.unimplementedOpcode, 0x200, some 0x0000⟩ }

/-- After Reset and Load the first Tick fetches the first two bytes of the image (R201, R182, R91). -/
def Obligations.BootFetchesTheFirstTwoImageBytes : Prop :=
    ∀ (s : State) (hi lo : Byte) (rest : List Byte), rest.length ≤ 3582 →
      ∃ t, handleAll [.reset, .load (hi :: lo :: rest)] s = .next (t, []) ∧ t.pc.toNat = 0x200 ∧ t.fault = none ∧
        t.fetchWord = some (BitVec.ofNat 16 (hi.toNat * 256 + lo.toNat))

/-- The reset state meets the invariant; its clause on the form of memory is the model's choice (log 7) (R34, R23, R26, log 7). -/
def Obligations.ResetMeetsTheInvariant : Prop :=
    Inv State.reset

/-- Every Tick keeps memory in canonical form, which is the model's own choice of representation (log 7) (R55, R56, R57, log 7). -/
def Obligations.StepKeepsMemoryCanonical : Prop :=
    ∀ s t : State, s.mem.wf = true → step s = .next t → t.mem.wf = true

/-- Every event keeps the invariant: pc at most 0x10FE, live entries 2 to 4096, latch precise, memory canonical (the model's choice, log 7) (R10, R23, R34, R55, R100, R102, R172, R173, R182, log 7). -/
def Obligations.StepKeepsTheInvariant : Prop :=
    (∀ s t : State, Inv s → step s = .next t → Inv t) ∧
    ∀ (e : Event) (s t : State) (out : List Output), Inv s → handle e s = .next (t, out) → Inv t

/-- Every state the driver can reach by any sequence of events meets the invariant; its clause on the form of memory is the model's choice (log 7) (R10, R23, R183, log 7). -/
def Obligations.ReachableStatesMeetTheInvariant : Prop :=
    ∀ s : State, Reachable s → Inv s

/-- Once a program spins on a JP to its own address, every Tick leaves the state unchanged (R208, R101). -/
def Obligations.FinishedProgramStaysFinished : Prop :=
    (∀ s : State, s.fault = none → s.finished = true → step s = .next s) ∧
    (State.reset.withFetchWord 16 0x1200).finished = true

/-- An event outside its contract is refused in latched states too: the refusal comes before the latch, the model's choice (log 4) (R180, R182, R32, log 4). -/
def Obligations.EventsOutsideTheContractAreRefusedFirst : Prop :=
    ∀ s : State, s.fault ≠ none →
      (∀ (k : Nat) (b : Bool), 16 ≤ k → handle (.setKey k b) s = .refused .keyIndexOutsideContract) ∧
      ∀ image : List Byte, 3584 < image.length → handle (.load image) s = .refused .imageTooLong
end

