-- ==== Sys2Proof/Laws/Decode.lean ====
section
/-! SUPPORT. The small lemmas of the encoding: the fields of a packed word, a word put together again from its fields, and
the opcode-map row of each format. -/

namespace Sys2Proof

/-! ### Fields of a packed word -/

@[simp] theorem nib1_append (op : Nibble) (r : Imm12) : nib1 (op ++ r : Word) = op := by
  unfold nib1
  rw [BitVec.extractLsb'_append_eq_of_le (by decide)]
  simp

@[simp] theorem immNnn_append (op : Nibble) (r : Imm12) : immNnn (op ++ r : Word) = r := by
  unfold immNnn
  rw [BitVec.extractLsb'_append_eq_of_add_le (by decide)]
  simp

@[simp] theorem nib2_append (op a : Nibble) (k : Byte) : nib2 (op ++ (a ++ k : Imm12) : Word) = a := by
  unfold nib2
  rw [BitVec.extractLsb'_append_eq_of_add_le (by decide), BitVec.extractLsb'_append_eq_of_le (by decide)]
  simp

@[simp] theorem immKk_append (op a : Nibble) (k : Byte) : immKk (op ++ (a ++ k : Imm12) : Word) = k := by
  unfold immKk
  rw [BitVec.extractLsb'_append_eq_of_add_le (by decide), BitVec.extractLsb'_append_eq_of_add_le (by decide)]
  simp

@[simp] theorem nib3_append (op a b n : Nibble) :
    nib3 (op ++ (a ++ (b ++ n : Byte) : Imm12) : Word) = b := by
  unfold nib3
  rw [BitVec.extractLsb'_append_eq_of_add_le (by decide), BitVec.extractLsb'_append_eq_of_add_le (by decide),
    BitVec.extractLsb'_append_eq_of_le (by decide)]
  simp

@[simp] theorem nib4_append (op a b n : Nibble) :
    nib4 (op ++ (a ++ (b ++ n : Byte) : Imm12) : Word) = n := by
  unfold nib4
  rw [BitVec.extractLsb'_append_eq_of_add_le (by decide), BitVec.extractLsb'_append_eq_of_add_le (by decide),
    BitVec.extractLsb'_append_eq_of_add_le (by decide)]
  simp

@[simp] theorem nib1_packNnn (op : Nibble) (nnn : Imm12) : nib1 (packNnn op nnn) = op := nib1_append ..
@[simp] theorem immNnn_packNnn (op : Nibble) (nnn : Imm12) : immNnn (packNnn op nnn) = nnn := immNnn_append ..
@[simp] theorem nib1_packXkk (op : Nibble) (x : Reg) (kk : Byte) : nib1 (packXkk op x kk) = op := nib1_append ..
@[simp] theorem immKk_packXkk (op : Nibble) (x : Reg) (kk : Byte) : immKk (packXkk op x kk) = kk := immKk_append ..
@[simp] theorem regX_packXkk (op : Nibble) (x : Reg) (kk : Byte) : regX (packXkk op x kk) = x :=
  congrArg BitVec.toFin (nib2_append op (BitVec.ofFin x) kk)
@[simp] theorem nib1_packXyn (op : Nibble) (x y : Reg) (n : Nibble) : nib1 (packXyn op x y n) = op := nib1_append ..
@[simp] theorem nib4_packXyn (op : Nibble) (x y : Reg) (n : Nibble) : nib4 (packXyn op x y n) = n := nib4_append ..
@[simp] theorem regX_packXyn (op : Nibble) (x y : Reg) (n : Nibble) : regX (packXyn op x y n) = x :=
  congrArg BitVec.toFin (nib2_append op (BitVec.ofFin x) _)
@[simp] theorem regY_packXyn (op : Nibble) (x y : Reg) (n : Nibble) : regY (packXyn op x y n) = y :=
  congrArg BitVec.toFin (nib3_append op (BitVec.ofFin x) (BitVec.ofFin y) n)

/-! ### A word from its fields -/

theorem packNnn_fields (w : Word) : packNnn (nib1 w) (immNnn w) = w := by
  apply BitVec.eq_of_getLsbD_eq
  intro i hi
  unfold packNnn nib1 immNnn
  rw [BitVec.getLsbD_append]
  simp only [BitVec.getLsbD_extractLsb']
  split
  · simp [*]
  · simp only [show i - 12 < 4 by omega, decide_true, Bool.true_and]
    congr 1; omega

theorem immNnn_fields (w : Word) : (BitVec.ofFin (regX w) ++ immKk w : Imm12) = immNnn w := by
  apply BitVec.eq_of_getLsbD_eq
  intro i hi
  show (nib2 w ++ immKk w).getLsbD i = _
  unfold nib2 immKk immNnn
  rw [BitVec.getLsbD_append]
  simp only [BitVec.getLsbD_extractLsb']
  split
  · simp [*]
  · simp only [show i - 8 < 4 by omega, hi, decide_true, Bool.true_and]
    congr 1; omega

theorem immKk_fields (w : Word) : (BitVec.ofFin (regY w) ++ nib4 w : Byte) = immKk w := by
  apply BitVec.eq_of_getLsbD_eq
  intro i hi
  show (nib3 w ++ nib4 w).getLsbD i = _
  unfold nib3 nib4 immKk
  rw [BitVec.getLsbD_append]
  simp only [BitVec.getLsbD_extractLsb']
  split
  · simp [*]
  · simp only [show i - 4 < 4 by omega, hi, decide_true, Bool.true_and]
    congr 1; omega

theorem packXkk_fields (w : Word) : packXkk (nib1 w) (regX w) (immKk w) = w := by
  unfold packXkk
  rw [immNnn_fields]
  exact packNnn_fields w

theorem packXyn_fields (w : Word) : packXyn (nib1 w) (regX w) (regY w) (nib4 w) = w := by
  unfold packXyn
  rw [immKk_fields]
  exact packXkk_fields w

/-! ### The number a packed word is -/

theorem toNat_packNnn (op : Nibble) (nnn : Imm12) : (packNnn op nnn).toNat = op.toNat * 4096 + nnn.toNat := by
  unfold packNnn
  rw [BitVec.toNat_append, ← Nat.shiftLeft_add_eq_or_of_lt nnn.isLt, Nat.shiftLeft_eq]

theorem toNat_packXkk (op : Nibble) (x : Reg) (kk : Byte) :
    (packXkk op x kk).toNat = op.toNat * 4096 + x.val * 256 + kk.toNat := by
  have h := toNat_packNnn op (BitVec.ofFin x ++ kk : Imm12)
  rw [BitVec.toNat_append, ← Nat.shiftLeft_add_eq_or_of_lt kk.isLt, Nat.shiftLeft_eq] at h
  exact h.trans (Nat.add_assoc ..).symm

theorem toNat_packXyn (op : Nibble) (x y : Reg) (n : Nibble) :
    (packXyn op x y n).toNat = op.toNat * 4096 + x.val * 256 + y.val * 16 + n.toNat := by
  have h := toNat_packXkk op x (BitVec.ofFin y ++ n : Byte)
  rw [BitVec.toNat_append, ← Nat.shiftLeft_add_eq_or_of_lt n.isLt, Nat.shiftLeft_eq] at h
  exact h.trans (Nat.add_assoc ..).symm

/-! ### Masks of the opcode map -/

theorem packNnn_and (op : Nibble) (nnn : Imm12) : packNnn op nnn &&& 0xF000#16 = packNnn op 0 := by
  have h : (op ++ nnn : Word) &&& ((0xF#4 : Nibble) ++ (0#12 : Imm12)) = (op &&& 0xF#4) ++ (nnn &&& 0#12) :=
    BitVec.and_append
  have ho : op &&& 0xF#4 = op := BitVec.and_allOnes (x := op)
  rw [ho, BitVec.and_zero] at h
  exact h

theorem packXkk_and (op : Nibble) (x : Reg) (kk : Byte) : packXkk op x kk &&& 0xF0FF#16 = packXkk op 0 kk := by
  have h : (op ++ (BitVec.ofFin x ++ kk : Imm12) : Word) &&& ((0xF#4 : Nibble) ++ ((0#4 : Nibble) ++ 0xFF#8 : Imm12)) =
      (op &&& 0xF#4) ++ ((BitVec.ofFin x ++ kk : Imm12) &&& ((0#4 : Nibble) ++ 0xFF#8 : Imm12)) := BitVec.and_append
  have h2 : (BitVec.ofFin x ++ kk : Imm12) &&& ((0#4 : Nibble) ++ 0xFF#8 : Imm12) =
      ((BitVec.ofFin x : Nibble) &&& 0#4) ++ (kk &&& 0xFF#8) := BitVec.and_append
  have ho : op &&& 0xF#4 = op := BitVec.and_allOnes (x := op)
  have hk : kk &&& 0xFF#8 = kk := BitVec.and_allOnes (x := kk)
  rw [h2, ho, hk, BitVec.and_zero] at h
  exact h

theorem packXyn_and (op : Nibble) (x y : Reg) (n : Nibble) :
    packXyn op x y n &&& 0xF00F#16 = packXyn op 0 0 n := by
  have h : (op ++ (BitVec.ofFin x ++ (BitVec.ofFin y ++ n : Byte) : Imm12) : Word) &&&
      ((0xF#4 : Nibble) ++ ((0#4 : Nibble) ++ ((0#4 : Nibble) ++ 0xF#4 : Byte) : Imm12)) = (op &&& 0xF#4) ++
      ((BitVec.ofFin x ++ (BitVec.ofFin y ++ n : Byte) : Imm12) &&& ((0#4 : Nibble) ++ ((0#4 : Nibble) ++ 0xF#4 : Byte) : Imm12)) :=
    BitVec.and_append
  have h2 : (BitVec.ofFin x ++ (BitVec.ofFin y ++ n : Byte) : Imm12) &&&
      ((0#4 : Nibble) ++ ((0#4 : Nibble) ++ 0xF#4 : Byte) : Imm12) =
      ((BitVec.ofFin x : Nibble) &&& 0#4) ++ ((BitVec.ofFin y ++ n : Byte) &&& ((0#4 : Nibble) ++ 0xF#4 : Byte)) :=
    BitVec.and_append
  have h3 : (BitVec.ofFin y ++ n : Byte) &&& ((0#4 : Nibble) ++ 0xF#4 : Byte) =
      ((BitVec.ofFin y : Nibble) &&& 0#4) ++ (n &&& 0xF#4) := BitVec.and_append
  have ho : op &&& 0xF#4 = op := BitVec.and_allOnes (x := op)
  have hn : n &&& 0xF#4 = n := BitVec.and_allOnes (x := n)
  rw [h2, h3, ho, hn, BitVec.and_zero, BitVec.and_zero] at h
  exact h

theorem packXkk_and_top (op : Nibble) (x : Reg) (kk : Byte) : packXkk op x kk &&& 0xF000#16 = packNnn op 0 := by
  have e : packXkk op x kk = packNnn op (BitVec.ofFin x ++ kk : Imm12) := rfl
  rw [e, packNnn_and]

theorem packXyn_and_top (op : Nibble) (x y : Reg) (n : Nibble) : packXyn op x y n &&& 0xF000#16 = packNnn op 0 := by
  have e : packXyn op x y n = packNnn op (BitVec.ofFin x ++ (BitVec.ofFin y ++ n : Byte) : Imm12) := rfl
  rw [e, packNnn_and]

/-- Every instruction stands in a row of the map. -/
theorem Instr.row_mem (i : Instr) : i.row ∈ opcodeMap := by
  cases i <;> simp [Instr.row, opcodeMap]

end Sys2Proof
end

