-- ==== Sys2Proof/Laws/Memory.lean ====
section
/-! SUPPORT. Laws of memory: a read after a write, every operation keeps the canonical form, and the block accesses byte
by byte. -/

namespace Sys2Proof.Machine

theorem Memory.read_unlist (m : Memory) (a b : Nat) :
    (m.unlist a).read b = if b = a then resetByte a else m.read b := by
  induction m with
  | nil => by_cases h : b = a <;> simp [Memory.unlist, Memory.read, h]
  | cons c m ih =>
    obtain ⟨k, t⟩ := c
    unfold Memory.unlist at ih ⊢
    by_cases hk : k = a
    · subst hk
      by_cases hb : b = k
      · simpa [hb] using ih
      · simpa [hb, Memory.read, Ne.symm hb] using ih
    · by_cases hb : k = b
      · subst hb; simp [hk, Memory.read]
      · simpa [hk, hb, Memory.read] using ih

theorem Memory.mem_unlist (m : Memory) (a : Nat) : ∀ c ∈ m.unlist a, c.1 ≠ a := by
  intro c hc
  simpa using (List.mem_filter.mp hc).2

theorem Memory.read_enlist (m : Memory) (a : Nat) (u : Byte) (b : Nat) (h : ∀ c ∈ m, c.1 ≠ a) :
    (Memory.enlist m a u).read b = if b = a then u else m.read b := by
  induction m with
  | nil => by_cases hb : b = a <;> simp [Memory.enlist, Memory.read, hb, Ne.symm]
  | cons c m ih =>
    obtain ⟨k, t⟩ := c
    have hk : k ≠ a := h (k, t) List.mem_cons_self
    have ih := ih fun c hc => h c (List.mem_cons_of_mem _ hc)
    unfold Memory.enlist
    split
    · by_cases hb : a = b
      · simp [Memory.read, hb]
      · simp [Memory.read, hb, Ne.symm hb]
    · by_cases hb : k = b
      · subst hb; simp [Memory.read, hk]
      · simpa [Memory.read, hb] using ih

/-- A read after a write: the byte written at its address, every other byte as before (R56). -/
theorem Memory.read_write (m : Memory) (a : Nat) (u : Byte) (b : Nat) :
    (m.write a u).read b = if b = a then u else m.read b := by
  unfold Memory.write
  split
  · rename_i h; rw [Memory.read_unlist, h]
  · rw [Memory.read_enlist _ _ _ _ (Memory.mem_unlist m a), Memory.read_unlist]
    by_cases hb : b = a <;> simp [hb]

theorem Memory.wfFrom_mono {lo lo' : Nat} {m : Memory} (h : lo ≤ lo') (hm : Memory.wfFrom lo' m = true) :
    Memory.wfFrom lo m = true := by
  cases m with
  | nil => rfl
  | cons c m =>
    obtain ⟨k, t⟩ := c
    simp only [Memory.wfFrom, Bool.and_eq_true, decide_eq_true_eq] at hm ⊢
    exact ⟨⟨⟨by omega, hm.1.1.2⟩, hm.1.2⟩, hm.2⟩

theorem Memory.wfFrom_unlist {lo : Nat} {m : Memory} (a : Nat) (hm : Memory.wfFrom lo m = true) :
    Memory.wfFrom lo (m.unlist a) = true := by
  induction m generalizing lo with
  | nil => rfl
  | cons c m ih =>
    obtain ⟨k, t⟩ := c
    simp only [Memory.wfFrom, Bool.and_eq_true, decide_eq_true_eq] at hm
    unfold Memory.unlist at ih ⊢
    by_cases hk : k = a
    · subst hk
      simpa using Memory.wfFrom_mono (by omega) (ih hm.2)
    · simp only [List.filter_cons, hk, bne_iff_ne, ne_eq, not_false_eq_true, if_true, Memory.wfFrom,
        Bool.and_eq_true, decide_eq_true_eq]
      exact ⟨hm.1, ih hm.2⟩

theorem Memory.wfFrom_enlist {lo a : Nat} {u : Byte} {m : Memory} (hm : Memory.wfFrom lo m = true)
    (h : ∀ c ∈ m, c.1 ≠ a) (hlo : lo ≤ a) (ha : a < Config.memSize) (hu : u ≠ resetByte a) :
    Memory.wfFrom lo (Memory.enlist m a u) = true := by
  induction m generalizing lo with
  | nil => simpa [Memory.enlist, Memory.wfFrom, hlo, hu] using ha
  | cons c m ih =>
    obtain ⟨k, t⟩ := c
    have hk : k ≠ a := h (k, t) List.mem_cons_self
    simp only [Memory.wfFrom, Bool.and_eq_true, decide_eq_true_eq] at hm
    unfold Memory.enlist
    split
    · simp only [Memory.wfFrom, Bool.and_eq_true, decide_eq_true_eq]
      exact ⟨⟨⟨hlo, ha⟩, hu⟩, ⟨⟨by omega, hm.1.1.2⟩, hm.1.2⟩, hm.2⟩
    · simp only [Memory.wfFrom, Bool.and_eq_true, decide_eq_true_eq]
      exact ⟨hm.1, ih hm.2 (fun c hc => h c (List.mem_cons_of_mem _ hc)) (by omega)⟩

/-- A write inside the address space keeps the canonical form. -/
theorem Memory.wf_write {m : Memory} {a : Nat} (u : Byte) (hm : m.wf = true) (ha : a < Config.memSize) :
    (m.write a u).wf = true := by
  unfold Memory.write
  split
  · exact Memory.wfFrom_unlist a hm
  · exact Memory.wfFrom_enlist (Memory.wfFrom_unlist a hm) (Memory.mem_unlist m a) (Nat.zero_le a) ha ‹_›

/-- The memory after reset, which lists nothing, has the form. -/
theorem Memory.wf_reset : State.reset.mem.wf = true := rfl

/-- A block write inside the address space keeps the canonical form. -/
theorem Memory.wf_writeMany {m : Memory} {base : Nat} (us : List Byte) (hm : m.wf = true)
    (h : base + us.length ≤ Config.memSize) : (m.writeMany base us).wf = true := by
  induction us generalizing m base with
  | nil => exact hm
  | cons u us ih =>
    simp only [List.length_cons] at h
    exact ih (Memory.wf_write u hm (by omega)) (by omega)

/-- A byte after a block write: the block's byte inside it, as before outside. -/
theorem Memory.read_writeMany (m : Memory) (base : Nat) (us : List Byte) (b : Nat) :
    (m.writeMany base us).read b =
      if base ≤ b ∧ b < base + us.length then us.getD (b - base) 0 else m.read b := by
  induction us generalizing m base with
  | nil => simp only [Memory.writeMany, List.length_nil]; rw [if_neg (by omega)]
  | cons u us ih =>
    simp only [Memory.writeMany, ih, Memory.read_write, List.length_cons]
    by_cases h1 : b = base
    · subst h1; simp
    · by_cases h2 : base + 1 ≤ b ∧ b < base + 1 + us.length
      · rw [if_pos h2, if_pos (by omega), show b - base = (b - (base + 1)) + 1 by omega, List.getD_cons_succ]
      · rw [if_neg h2, if_neg h1, if_neg (by omega)]

@[simp] theorem Memory.length_readMany (m : Memory) (base n : Nat) : (m.readMany base n).length = n := by
  induction n generalizing base with
  | zero => rfl
  | succ n ih => simp [Memory.readMany, ih]

/-- The `k`-th byte of a block read is the byte at `base + k`. -/
theorem Memory.getD_readMany (m : Memory) (base n k : Nat) (hk : k < n) :
    (m.readMany base n).getD k 0 = m.read (base + k) := by
  induction n generalizing base k with
  | zero => omega
  | succ n ih =>
    cases k with
    | zero => simp [Memory.readMany]
    | succ k =>
      simp only [Memory.readMany, List.getD_cons_succ]
      rw [ih (base + 1) k (by omega)]
      congr 1; omega

theorem spanOk_iff (base n : Nat) : spanOk base n = true ↔ n = 0 ∨ base + n ≤ 4096 := by
  simp [spanOk]

end Sys2Proof.Machine
end

