-- ==== Sys2Proof/Laws/State.lean ====
section
/-! SUPPORT. One lemma per field per update of the state, each true by rfl, and what a register reads as after each
update; no later proof unfolds a record update. -/

namespace Sys2Proof.Machine

variable (s : State)

/-! ### setPc -/

@[simp] theorem State.setPc_mem (a : Word) : (s.setPc a).mem = s.mem := rfl
@[simp] theorem State.setPc_v (a : Word) : (s.setPc a).v = s.v := rfl
@[simp] theorem State.setPc_i (a : Word) : (s.setPc a).i = s.i := rfl
@[simp] theorem State.setPc_pc (a : Word) : (s.setPc a).pc = a := rfl
@[simp] theorem State.setPc_stack (a : Word) : (s.setPc a).stack = s.stack := rfl
@[simp] theorem State.setPc_sp (a : Word) : (s.setPc a).sp = s.sp := rfl
@[simp] theorem State.setPc_key (a : Word) : (s.setPc a).key = s.key := rfl
@[simp] theorem State.setPc_fb (a : Word) : (s.setPc a).fb = s.fb := rfl
@[simp] theorem State.setPc_dt (a : Word) : (s.setPc a).dt = s.dt := rfl
@[simp] theorem State.setPc_st (a : Word) : (s.setPc a).st = s.st := rfl
@[simp] theorem State.setPc_fault (a : Word) : (s.setPc a).fault = s.fault := rfl
@[simp] theorem State.setPc_draws (a : Word) : (s.setPc a).draws = s.draws := rfl
@[simp] theorem State.setPc_reg (a : Word) (q : Reg) : (s.setPc a).reg q = s.reg q := rfl

/-! ### setReg -/

@[simp] theorem State.setReg_mem (r : Reg) (u : Byte) : (s.setReg r u).mem = s.mem := rfl
@[simp] theorem State.setReg_v (r : Reg) (u : Byte) : (s.setReg r u).v = s.v.set r.val u := rfl
@[simp] theorem State.setReg_i (r : Reg) (u : Byte) : (s.setReg r u).i = s.i := rfl
@[simp] theorem State.setReg_pc (r : Reg) (u : Byte) : (s.setReg r u).pc = s.pc := rfl
@[simp] theorem State.setReg_stack (r : Reg) (u : Byte) : (s.setReg r u).stack = s.stack := rfl
@[simp] theorem State.setReg_sp (r : Reg) (u : Byte) : (s.setReg r u).sp = s.sp := rfl
@[simp] theorem State.setReg_key (r : Reg) (u : Byte) : (s.setReg r u).key = s.key := rfl
@[simp] theorem State.setReg_fb (r : Reg) (u : Byte) : (s.setReg r u).fb = s.fb := rfl
@[simp] theorem State.setReg_dt (r : Reg) (u : Byte) : (s.setReg r u).dt = s.dt := rfl
@[simp] theorem State.setReg_st (r : Reg) (u : Byte) : (s.setReg r u).st = s.st := rfl
@[simp] theorem State.setReg_fault (r : Reg) (u : Byte) : (s.setReg r u).fault = s.fault := rfl
@[simp] theorem State.setReg_draws (r : Reg) (u : Byte) : (s.setReg r u).draws = s.draws := rfl

/-! ### setI -/

@[simp] theorem State.setI_mem (a : Word) : (s.setI a).mem = s.mem := rfl
@[simp] theorem State.setI_v (a : Word) : (s.setI a).v = s.v := rfl
@[simp] theorem State.setI_i (a : Word) : (s.setI a).i = a := rfl
@[simp] theorem State.setI_pc (a : Word) : (s.setI a).pc = s.pc := rfl
@[simp] theorem State.setI_stack (a : Word) : (s.setI a).stack = s.stack := rfl
@[simp] theorem State.setI_sp (a : Word) : (s.setI a).sp = s.sp := rfl
@[simp] theorem State.setI_key (a : Word) : (s.setI a).key = s.key := rfl
@[simp] theorem State.setI_fb (a : Word) : (s.setI a).fb = s.fb := rfl
@[simp] theorem State.setI_dt (a : Word) : (s.setI a).dt = s.dt := rfl
@[simp] theorem State.setI_st (a : Word) : (s.setI a).st = s.st := rfl
@[simp] theorem State.setI_fault (a : Word) : (s.setI a).fault = s.fault := rfl
@[simp] theorem State.setI_draws (a : Word) : (s.setI a).draws = s.draws := rfl
@[simp] theorem State.setI_reg (a : Word) (q : Reg) : (s.setI a).reg q = s.reg q := rfl

/-! ### setMem -/

@[simp] theorem State.setMem_mem (m : Memory) : (s.setMem m).mem = m := rfl
@[simp] theorem State.setMem_v (m : Memory) : (s.setMem m).v = s.v := rfl
@[simp] theorem State.setMem_i (m : Memory) : (s.setMem m).i = s.i := rfl
@[simp] theorem State.setMem_pc (m : Memory) : (s.setMem m).pc = s.pc := rfl
@[simp] theorem State.setMem_stack (m : Memory) : (s.setMem m).stack = s.stack := rfl
@[simp] theorem State.setMem_sp (m : Memory) : (s.setMem m).sp = s.sp := rfl
@[simp] theorem State.setMem_key (m : Memory) : (s.setMem m).key = s.key := rfl
@[simp] theorem State.setMem_fb (m : Memory) : (s.setMem m).fb = s.fb := rfl
@[simp] theorem State.setMem_dt (m : Memory) : (s.setMem m).dt = s.dt := rfl
@[simp] theorem State.setMem_st (m : Memory) : (s.setMem m).st = s.st := rfl
@[simp] theorem State.setMem_fault (m : Memory) : (s.setMem m).fault = s.fault := rfl
@[simp] theorem State.setMem_draws (m : Memory) : (s.setMem m).draws = s.draws := rfl
@[simp] theorem State.setMem_reg (m : Memory) (q : Reg) : (s.setMem m).reg q = s.reg q := rfl

/-! ### setFb -/

@[simp] theorem State.setFb_mem (f : Framebuffer) : (s.setFb f).mem = s.mem := rfl
@[simp] theorem State.setFb_v (f : Framebuffer) : (s.setFb f).v = s.v := rfl
@[simp] theorem State.setFb_i (f : Framebuffer) : (s.setFb f).i = s.i := rfl
@[simp] theorem State.setFb_pc (f : Framebuffer) : (s.setFb f).pc = s.pc := rfl
@[simp] theorem State.setFb_stack (f : Framebuffer) : (s.setFb f).stack = s.stack := rfl
@[simp] theorem State.setFb_sp (f : Framebuffer) : (s.setFb f).sp = s.sp := rfl
@[simp] theorem State.setFb_key (f : Framebuffer) : (s.setFb f).key = s.key := rfl
@[simp] theorem State.setFb_fb (f : Framebuffer) : (s.setFb f).fb = f := rfl
@[simp] theorem State.setFb_dt (f : Framebuffer) : (s.setFb f).dt = s.dt := rfl
@[simp] theorem State.setFb_st (f : Framebuffer) : (s.setFb f).st = s.st := rfl
@[simp] theorem State.setFb_fault (f : Framebuffer) : (s.setFb f).fault = s.fault := rfl
@[simp] theorem State.setFb_draws (f : Framebuffer) : (s.setFb f).draws = s.draws := rfl
@[simp] theorem State.setFb_reg (f : Framebuffer) (q : Reg) : (s.setFb f).reg q = s.reg q := rfl

/-! ### setDt -/

@[simp] theorem State.setDt_mem (u : Byte) : (s.setDt u).mem = s.mem := rfl
@[simp] theorem State.setDt_v (u : Byte) : (s.setDt u).v = s.v := rfl
@[simp] theorem State.setDt_i (u : Byte) : (s.setDt u).i = s.i := rfl
@[simp] theorem State.setDt_pc (u : Byte) : (s.setDt u).pc = s.pc := rfl
@[simp] theorem State.setDt_stack (u : Byte) : (s.setDt u).stack = s.stack := rfl
@[simp] theorem State.setDt_sp (u : Byte) : (s.setDt u).sp = s.sp := rfl
@[simp] theorem State.setDt_key (u : Byte) : (s.setDt u).key = s.key := rfl
@[simp] theorem State.setDt_fb (u : Byte) : (s.setDt u).fb = s.fb := rfl
@[simp] theorem State.setDt_dt (u : Byte) : (s.setDt u).dt = u := rfl
@[simp] theorem State.setDt_st (u : Byte) : (s.setDt u).st = s.st := rfl
@[simp] theorem State.setDt_fault (u : Byte) : (s.setDt u).fault = s.fault := rfl
@[simp] theorem State.setDt_draws (u : Byte) : (s.setDt u).draws = s.draws := rfl
@[simp] theorem State.setDt_reg (u : Byte) (q : Reg) : (s.setDt u).reg q = s.reg q := rfl

/-! ### setSt -/

@[simp] theorem State.setSt_mem (u : Byte) : (s.setSt u).mem = s.mem := rfl
@[simp] theorem State.setSt_v (u : Byte) : (s.setSt u).v = s.v := rfl
@[simp] theorem State.setSt_i (u : Byte) : (s.setSt u).i = s.i := rfl
@[simp] theorem State.setSt_pc (u : Byte) : (s.setSt u).pc = s.pc := rfl
@[simp] theorem State.setSt_stack (u : Byte) : (s.setSt u).stack = s.stack := rfl
@[simp] theorem State.setSt_sp (u : Byte) : (s.setSt u).sp = s.sp := rfl
@[simp] theorem State.setSt_key (u : Byte) : (s.setSt u).key = s.key := rfl
@[simp] theorem State.setSt_fb (u : Byte) : (s.setSt u).fb = s.fb := rfl
@[simp] theorem State.setSt_dt (u : Byte) : (s.setSt u).dt = s.dt := rfl
@[simp] theorem State.setSt_st (u : Byte) : (s.setSt u).st = u := rfl
@[simp] theorem State.setSt_fault (u : Byte) : (s.setSt u).fault = s.fault := rfl
@[simp] theorem State.setSt_draws (u : Byte) : (s.setSt u).draws = s.draws := rfl
@[simp] theorem State.setSt_reg (u : Byte) (q : Reg) : (s.setSt u).reg q = s.reg q := rfl

/-! ### setKeyFlag -/

@[simp] theorem State.setKeyFlag_mem (k : Fin 16) (b : Bool) : (s.setKeyFlag k b).mem = s.mem := rfl
@[simp] theorem State.setKeyFlag_v (k : Fin 16) (b : Bool) : (s.setKeyFlag k b).v = s.v := rfl
@[simp] theorem State.setKeyFlag_i (k : Fin 16) (b : Bool) : (s.setKeyFlag k b).i = s.i := rfl
@[simp] theorem State.setKeyFlag_pc (k : Fin 16) (b : Bool) : (s.setKeyFlag k b).pc = s.pc := rfl
@[simp] theorem State.setKeyFlag_stack (k : Fin 16) (b : Bool) : (s.setKeyFlag k b).stack = s.stack := rfl
@[simp] theorem State.setKeyFlag_sp (k : Fin 16) (b : Bool) : (s.setKeyFlag k b).sp = s.sp := rfl
@[simp] theorem State.setKeyFlag_key (k : Fin 16) (b : Bool) : (s.setKeyFlag k b).key = s.key.set k.val b := rfl
@[simp] theorem State.setKeyFlag_fb (k : Fin 16) (b : Bool) : (s.setKeyFlag k b).fb = s.fb := rfl
@[simp] theorem State.setKeyFlag_dt (k : Fin 16) (b : Bool) : (s.setKeyFlag k b).dt = s.dt := rfl
@[simp] theorem State.setKeyFlag_st (k : Fin 16) (b : Bool) : (s.setKeyFlag k b).st = s.st := rfl
@[simp] theorem State.setKeyFlag_fault (k : Fin 16) (b : Bool) : (s.setKeyFlag k b).fault = s.fault := rfl
@[simp] theorem State.setKeyFlag_draws (k : Fin 16) (b : Bool) : (s.setKeyFlag k b).draws = s.draws := rfl
@[simp] theorem State.setKeyFlag_reg (k : Fin 16) (b : Bool) (q : Reg) : (s.setKeyFlag k b).reg q = s.reg q := rfl

/-! ### countDraw -/

@[simp] theorem State.countDraw_mem : (s.countDraw).mem = s.mem := rfl
@[simp] theorem State.countDraw_v : (s.countDraw).v = s.v := rfl
@[simp] theorem State.countDraw_i : (s.countDraw).i = s.i := rfl
@[simp] theorem State.countDraw_pc : (s.countDraw).pc = s.pc := rfl
@[simp] theorem State.countDraw_stack : (s.countDraw).stack = s.stack := rfl
@[simp] theorem State.countDraw_sp : (s.countDraw).sp = s.sp := rfl
@[simp] theorem State.countDraw_key : (s.countDraw).key = s.key := rfl
@[simp] theorem State.countDraw_fb : (s.countDraw).fb = s.fb := rfl
@[simp] theorem State.countDraw_dt : (s.countDraw).dt = s.dt := rfl
@[simp] theorem State.countDraw_st : (s.countDraw).st = s.st := rfl
@[simp] theorem State.countDraw_fault : (s.countDraw).fault = s.fault := rfl
@[simp] theorem State.countDraw_draws : (s.countDraw).draws = s.draws + 1 := rfl
@[simp] theorem State.countDraw_reg (q : Reg) : (s.countDraw).reg q = s.reg q := rfl

/-! ### advance -/

@[simp] theorem State.advance_mem : (s.advance).mem = s.mem := rfl
@[simp] theorem State.advance_v : (s.advance).v = s.v := rfl
@[simp] theorem State.advance_i : (s.advance).i = s.i := rfl
@[simp] theorem State.advance_pc : (s.advance).pc = s.pc + 2 := rfl
@[simp] theorem State.advance_stack : (s.advance).stack = s.stack := rfl
@[simp] theorem State.advance_sp : (s.advance).sp = s.sp := rfl
@[simp] theorem State.advance_key : (s.advance).key = s.key := rfl
@[simp] theorem State.advance_fb : (s.advance).fb = s.fb := rfl
@[simp] theorem State.advance_dt : (s.advance).dt = s.dt := rfl
@[simp] theorem State.advance_st : (s.advance).st = s.st := rfl
@[simp] theorem State.advance_fault : (s.advance).fault = s.fault := rfl
@[simp] theorem State.advance_draws : (s.advance).draws = s.draws := rfl
@[simp] theorem State.advance_reg (q : Reg) : (s.advance).reg q = s.reg q := rfl

/-! ### setFlag -/

@[simp] theorem State.setFlag_mem (b : Bool) : (s.setFlag b).mem = s.mem := rfl
@[simp] theorem State.setFlag_v (b : Bool) : (s.setFlag b).v = s.v.set vf.val (flagByte b) := rfl
@[simp] theorem State.setFlag_i (b : Bool) : (s.setFlag b).i = s.i := rfl
@[simp] theorem State.setFlag_pc (b : Bool) : (s.setFlag b).pc = s.pc := rfl
@[simp] theorem State.setFlag_stack (b : Bool) : (s.setFlag b).stack = s.stack := rfl
@[simp] theorem State.setFlag_sp (b : Bool) : (s.setFlag b).sp = s.sp := rfl
@[simp] theorem State.setFlag_key (b : Bool) : (s.setFlag b).key = s.key := rfl
@[simp] theorem State.setFlag_fb (b : Bool) : (s.setFlag b).fb = s.fb := rfl
@[simp] theorem State.setFlag_dt (b : Bool) : (s.setFlag b).dt = s.dt := rfl
@[simp] theorem State.setFlag_st (b : Bool) : (s.setFlag b).st = s.st := rfl
@[simp] theorem State.setFlag_fault (b : Bool) : (s.setFlag b).fault = s.fault := rfl
@[simp] theorem State.setFlag_draws (b : Bool) : (s.setFlag b).draws = s.draws := rfl

/-! ### takeFault -/

@[simp] theorem State.takeFault_mem (k : FaultKind) (w : Option Word) : (s.takeFault k w).mem = s.mem := rfl
@[simp] theorem State.takeFault_v (k : FaultKind) (w : Option Word) : (s.takeFault k w).v = s.v := rfl
@[simp] theorem State.takeFault_i (k : FaultKind) (w : Option Word) : (s.takeFault k w).i = s.i := rfl
@[simp] theorem State.takeFault_pc (k : FaultKind) (w : Option Word) : (s.takeFault k w).pc = s.pc := rfl
@[simp] theorem State.takeFault_stack (k : FaultKind) (w : Option Word) : (s.takeFault k w).stack = s.stack := rfl
@[simp] theorem State.takeFault_sp (k : FaultKind) (w : Option Word) : (s.takeFault k w).sp = s.sp := rfl
@[simp] theorem State.takeFault_key (k : FaultKind) (w : Option Word) : (s.takeFault k w).key = s.key := rfl
@[simp] theorem State.takeFault_fb (k : FaultKind) (w : Option Word) : (s.takeFault k w).fb = s.fb := rfl
@[simp] theorem State.takeFault_dt (k : FaultKind) (w : Option Word) : (s.takeFault k w).dt = s.dt := rfl
@[simp] theorem State.takeFault_st (k : FaultKind) (w : Option Word) : (s.takeFault k w).st = s.st := rfl
@[simp] theorem State.takeFault_fault (k : FaultKind) (w : Option Word) : (s.takeFault k w).fault = some { kind := k, addr := s.pc, word := w } := rfl
@[simp] theorem State.takeFault_draws (k : FaultKind) (w : Option Word) : (s.takeFault k w).draws = s.draws := rfl
@[simp] theorem State.takeFault_reg (k : FaultKind) (w : Option Word) (q : Reg) : (s.takeFault k w).reg q = s.reg q := rfl

/-! ### placeAtPc -/

@[simp] theorem State.placeAtPc_mem (us : List Byte) : (s.placeAtPc us).mem = s.mem.writeMany s.pc.toNat us := rfl
@[simp] theorem State.placeAtPc_v (us : List Byte) : (s.placeAtPc us).v = s.v := rfl
@[simp] theorem State.placeAtPc_i (us : List Byte) : (s.placeAtPc us).i = s.i := rfl
@[simp] theorem State.placeAtPc_pc (us : List Byte) : (s.placeAtPc us).pc = s.pc := rfl
@[simp] theorem State.placeAtPc_stack (us : List Byte) : (s.placeAtPc us).stack = s.stack := rfl
@[simp] theorem State.placeAtPc_sp (us : List Byte) : (s.placeAtPc us).sp = s.sp := rfl
@[simp] theorem State.placeAtPc_key (us : List Byte) : (s.placeAtPc us).key = s.key := rfl
@[simp] theorem State.placeAtPc_fb (us : List Byte) : (s.placeAtPc us).fb = s.fb := rfl
@[simp] theorem State.placeAtPc_dt (us : List Byte) : (s.placeAtPc us).dt = s.dt := rfl
@[simp] theorem State.placeAtPc_st (us : List Byte) : (s.placeAtPc us).st = s.st := rfl
@[simp] theorem State.placeAtPc_fault (us : List Byte) : (s.placeAtPc us).fault = s.fault := rfl
@[simp] theorem State.placeAtPc_draws (us : List Byte) : (s.placeAtPc us).draws = s.draws := rfl
@[simp] theorem State.placeAtPc_reg (us : List Byte) (q : Reg) : (s.placeAtPc us).reg q = s.reg q := rfl

/-! ### fillRegs -/

@[simp] theorem State.fillRegs_mem (us : List Byte) : (s.fillRegs us).mem = s.mem := rfl
@[simp] theorem State.fillRegs_v (us : List Byte) : (s.fillRegs us).v = fillFrom s.v 0 us := rfl
@[simp] theorem State.fillRegs_i (us : List Byte) : (s.fillRegs us).i = s.i := rfl
@[simp] theorem State.fillRegs_pc (us : List Byte) : (s.fillRegs us).pc = s.pc := rfl
@[simp] theorem State.fillRegs_stack (us : List Byte) : (s.fillRegs us).stack = s.stack := rfl
@[simp] theorem State.fillRegs_sp (us : List Byte) : (s.fillRegs us).sp = s.sp := rfl
@[simp] theorem State.fillRegs_key (us : List Byte) : (s.fillRegs us).key = s.key := rfl
@[simp] theorem State.fillRegs_fb (us : List Byte) : (s.fillRegs us).fb = s.fb := rfl
@[simp] theorem State.fillRegs_dt (us : List Byte) : (s.fillRegs us).dt = s.dt := rfl
@[simp] theorem State.fillRegs_st (us : List Byte) : (s.fillRegs us).st = s.st := rfl
@[simp] theorem State.fillRegs_fault (us : List Byte) : (s.fillRegs us).fault = s.fault := rfl
@[simp] theorem State.fillRegs_draws (us : List Byte) : (s.fillRegs us).draws = s.draws := rfl

/-! ### The written register -/

/-- `V[q]` after `V[r] <- u`. -/
@[simp] theorem State.setReg_reg (r : Reg) (u : Byte) (q : Reg) :
    (s.setReg r u).reg q = if q = r then u else s.reg q := by
  by_cases h : q = r
  · subst h; simp [State.reg]
  · have hv : r.val ≠ q.val := fun e => h (Fin.ext e.symm)
    simp [State.reg, Vector.getElem_set_ne _ _ hv, h]

/-- `V[q]` after `VF <- flag`. -/
@[simp] theorem State.setFlag_reg (b : Bool) (q : Reg) :
    (s.setFlag b).reg q = if q = vf then flagByte b else s.reg q := State.setReg_reg s vf (flagByte b) q

end Sys2Proof.Machine
end

