-- ==== Sys2Proof/Laws/Ops.lean ====
section
/-! SUPPORT. One lemma per shared operation that says what it answers. -/

namespace Sys2Proof.Machine

variable (s : State)

/-! ### Checked memory access -/

theorem State.memRead_eq (a : Nat) : s.memRead a = if a ≤ 4095 then some (s.mem.read a) else none := by
  simp only [State.memRead, spanOk_iff]
  exact if_congr (by omega) rfl rfl

theorem State.memWrite_eq (a : Nat) (u : Byte) :
    s.memWrite a u = if a ≤ 4095 then some (s.setMem (s.mem.write a u)) else none := by
  simp only [State.memWrite, spanOk_iff]
  exact if_congr (by omega) rfl rfl

theorem State.readBytes_eq (base n : Nat) :
    s.readBytes base n = if n = 0 ∨ base + n ≤ 4096 then some (s.mem.readMany base n) else none := by
  simp only [State.readBytes, spanOk_iff]

theorem State.writeBytes_eq (base : Nat) (us : List Byte) :
    s.writeBytes base us =
      if us.length = 0 ∨ base + us.length ≤ 4096 then some (s.setMem (s.mem.writeMany base us)) else none := by
  simp only [State.writeBytes, spanOk_iff]

theorem State.fetchWord_eq :
    s.fetchWord = if s.pc.toNat ≤ 4094 then
      some (wordOfBytes (s.mem.read s.pc.toNat) (s.mem.read (s.pc.toNat + 1))) else none := by
  simp only [State.fetchWord, spanOk_iff]
  exact if_congr (by simp only [Config.insnBytes]; omega) rfl rfl

theorem wordOfBytes_toNat (hi lo : Byte) : (wordOfBytes hi lo).toNat = hi.toNat * 256 + lo.toNat := by
  unfold wordOfBytes
  rw [BitVec.toNat_append, ← Nat.shiftLeft_add_eq_or_of_lt lo.isLt, Nat.shiftLeft_eq]

/-! ### The stack -/

theorem State.push_full (a : Word) (h : s.sp.val = 16) : s.push a = none := by
  simp [State.push, h]

theorem State.push_room (a : Word) (h : s.sp.val < 16) :
    s.push a = some { s with stack := s.stack.set s.sp.val a, sp := ⟨s.sp.val + 1, by omega⟩ } := by
  simp [State.push, h]

theorem State.pop_empty (h : s.sp.val = 0) : s.pop = none := by
  simp [State.pop, h]

theorem State.pop_live (h : 0 < s.sp.val) :
    s.pop = some (s.stack[s.sp.val - 1], { s with sp := ⟨s.sp.val - 1, by omega⟩ }) := by
  simp [State.pop, h]

/-! ### Operands -/

theorem State.keyIndex_some (x : Reg) (k : Fin 16) : s.keyIndex x = some k ↔ (s.reg x).toNat = k.val := by
  unfold State.keyIndex
  split
  · simp [Fin.ext_iff]
  · simp only [reduceCtorEq, false_iff]; omega

theorem State.keyIndex_none (x : Reg) : s.keyIndex x = none ↔ 15 < (s.reg x).toNat := by
  unfold State.keyIndex
  split
  · simp only [reduceCtorEq, false_iff]; omega
  · simp only [true_iff]; omega

theorem State.firstKey_none : s.firstKey = none ↔ ∀ k : Fin 16, s.key[k.val] = false := by
  simp [State.firstKey, List.find?_eq_none]

/-- The key found is pressed, and no lower one is. -/
theorem State.firstKey_some {k : Fin 16} (h : s.firstKey = some k) :
    s.key[k.val] = true ∧ ∀ j : Fin 16, j < k → s.key[j.val] = false := by
  obtain ⟨hk, as, bs, hsplit, has⟩ := List.find?_eq_some_iff_append.mp h
  refine ⟨by simpa using hk, fun j hj => ?_⟩
  have hp : (as ++ k :: bs).Pairwise (· < ·) := hsplit ▸ List.pairwise_lt_finRange 16
  have hmem : j ∈ as ++ k :: bs := hsplit ▸ List.mem_finRange j
  rcases List.mem_append.mp hmem with hm | hm
  · simpa using has j hm
  · rcases List.mem_cons.mp hm with rfl | hm
    · exact absurd hj (lt_irrefl _)
    · exact absurd ((List.pairwise_cons.mp (List.pairwise_append.mp hp).2.1).1 j hm) (not_lt.mpr hj.le)

@[simp] theorem State.length_firstRegs (x : Reg) : (s.firstRegs x).length = x.val + 1 := by
  simp [State.firstRegs]

theorem State.getD_firstRegs (x : Reg) (k : Reg) (h : k ≤ x) : (s.firstRegs x).getD k.val 0 = s.reg k := by
  have hk : k.val < x.val + 1 := Nat.lt_succ_of_le h
  simp [State.firstRegs, State.reg, hk, List.getD_eq_getElem?_getD]

theorem getElem_fillFrom (v : Vector Byte 16) (k : Nat) (us : List Byte) (h : k + us.length ≤ 16) (r : Reg) :
    (fillFrom v k us)[r.val] = if k ≤ r.val ∧ r.val < k + us.length then us.getD (r.val - k) 0 else v[r.val] := by
  induction us generalizing v k with
  | nil => simp only [fillFrom, List.length_nil]; rw [if_neg (by omega)]
  | cons u us ih =>
    simp only [List.length_cons] at h
    have hk : (Fin.ofNat 16 k).val = k := Nat.mod_eq_of_lt (by omega)
    simp only [fillFrom, List.length_cons]
    rw [ih _ _ (by omega), Vector.getElem_set]
    by_cases h1 : r.val = k
    · rw [if_neg (by omega), if_pos (hk.trans h1.symm), if_pos (by omega), h1, Nat.sub_self, List.getD_cons_zero]
    · by_cases h2 : k + 1 ≤ r.val ∧ r.val < k + 1 + us.length
      · rw [if_pos h2, if_pos (by omega), show r.val - k = (r.val - (k + 1)) + 1 by omega, List.getD_cons_succ]
      · rw [if_neg h2, if_neg (by omega), if_neg (by omega)]

/-- The registers after a bulk load. -/
theorem State.fillRegs_reg (us : List Byte) (h : us.length ≤ 16) (r : Reg) :
    (s.fillRegs us).reg r = if r.val < us.length then us.getD r.val 0 else s.reg r := by
  have e := getElem_fillFrom s.v 0 us (by omega) r
  simp only [Nat.zero_le, true_and, Nat.zero_add, Nat.sub_zero] at e
  exact e

theorem State.skipIf_eq (c : Bool) : s.skipIf c = s.setPc (if c then s.pc + 2 else s.pc) := by
  unfold State.skipIf
  split <;> rfl

/-! ### Flags -/

theorem flagByte_toNat (b : Bool) : (flagByte b).toNat = if b then 1 else 0 := by
  cases b <;> rfl

/-- Result first, flag second. -/
theorem State.setResultThenFlag_reg (x : Reg) (u : Byte) (b : Bool) (q : Reg) :
    (s.setResultThenFlag x u b).reg q = if q = vf then flagByte b else if q = x then u else s.reg q := by
  simp [State.setResultThenFlag]

/-- Flag first, then the register as it stands is shifted. -/
theorem State.setFlagThenShift_reg (x : Reg) (b : Bool) (f : Byte → Byte) (q : Reg) :
    (s.setFlagThenShift x b f).reg q =
      if q = x then f (if x = vf then flagByte b else s.reg x) else if q = vf then flagByte b else s.reg q := by
  simp [State.setFlagThenShift]

theorem State.setResultThenFlag_eq (x : Reg) (u : Byte) (b : Bool) :
    s.setResultThenFlag x u b = { s with v := (s.setResultThenFlag x u b).v } := rfl

theorem State.setFlagThenShift_eq (x : Reg) (b : Bool) (f : Byte → Byte) :
    s.setFlagThenShift x b f = { s with v := (s.setFlagThenShift x b f).v } := rfl

/-! ### Display -/

theorem getLsbD_toggleCell (f : Framebuffer) (k j : Nat) (hk : k < 2048) :
    (toggleCell f k).getLsbD j = (f.getLsbD j ^^ decide (j = k)) := by
  unfold toggleCell
  rw [BitVec.getLsbD_xor, BitVec.getLsbD_twoPow]
  have h : (decide (k < Config.screenCells) && decide (k = j)) = decide (j = k) := by
    simp [Config.screenCells, hk, eq_comm]
  rw [h]

theorem cellOf_lt (cx cy : Nat) : cellOf (cx % Config.screenW) (cy % Config.screenH) < 2048 := by
  unfold cellOf
  simp only [Config.screenW, Config.screenH]
  omega

end Sys2Proof.Machine
end

