-- ==== Sys2Proof/Laws/Display.lean ====
section
/-! SUPPORT. Drawing a sprite as toggling a list of distinct cells: what the framebuffer and the collision flag are
afterwards. -/

namespace Sys2Proof.Machine

/-- One toggle, with the collision so far. -/
def toggleStep (c : Framebuffer × Bool) (k : Nat) : Framebuffer × Bool := (toggleCell c.1 k, c.2 || c.1.getLsbD k)

/-- The cells the set bits of one sprite byte land on. -/
def rowCells (ox oy row : Nat) (u : Byte) : List Nat :=
  ([0, 1, 2, 3, 4, 5, 6, 7].filter fun col => u.getLsbD (7 - col)).map fun col =>
    cellOf ((ox + col) % Config.screenW) ((oy + row) % Config.screenH)

/-- The cells the set bits of a sprite land on. -/
def spriteCells (ox oy : Nat) : Nat → List Byte → List Nat
  | _, [] => []
  | row, u :: us => rowCells ox oy row u ++ spriteCells ox oy (row + 1) us

theorem foldl_drawBit (ox oy row : Nat) (u : Byte) (cols : List Nat) (c : Framebuffer × Bool) :
    cols.foldl (drawBit ox oy row u) c =
      ((cols.filter fun col => u.getLsbD (7 - col)).map fun col =>
        cellOf ((ox + col) % Config.screenW) ((oy + row) % Config.screenH)).foldl toggleStep c := by
  induction cols generalizing c with
  | nil => rfl
  | cons col cols ih =>
    rw [List.foldl_cons, ih]
    by_cases h : u.getLsbD (7 - col) = true
    · simp only [List.filter_cons, drawBit, h, if_true, List.map_cons, List.foldl_cons]; rfl
    · simp only [List.filter_cons, drawBit, h]; rfl

theorem drawRow_eq (ox oy row : Nat) (u : Byte) (c : Framebuffer × Bool) :
    drawRow ox oy row u c = (rowCells ox oy row u).foldl toggleStep c := foldl_drawBit ox oy row u _ c

theorem drawRows_eq (ox oy row : Nat) (us : List Byte) (c : Framebuffer × Bool) :
    drawRows ox oy row us c = (spriteCells ox oy row us).foldl toggleStep c := by
  induction us generalizing row c with
  | nil => rfl
  | cons u us ih => rw [drawRows, ih, drawRow_eq, spriteCells, List.foldl_append]

theorem mem_rowCells (ox oy row : Nat) (u : Byte) (k : Nat) :
    k ∈ rowCells ox oy row u ↔ ∃ col < 8, u.getLsbD (7 - col) = true ∧ k = (oy + row) % 32 * 64 + (ox + col) % 64 := by
  have hm : ∀ col : Nat, col ∈ [0, 1, 2, 3, 4, 5, 6, 7] ↔ col < 8 := by
    intro col; simp only [List.mem_cons, List.not_mem_nil, or_false]; omega
  simp only [rowCells, List.mem_map, List.mem_filter, hm, cellOf]
  constructor
  · rintro ⟨col, ⟨h1, h2⟩, rfl⟩; exact ⟨col, h1, h2, rfl⟩
  · rintro ⟨col, h1, h2, rfl⟩; exact ⟨col, ⟨h1, h2⟩, rfl⟩

/-- A cell is among the sprite's exactly when some set bit lands on it. -/
theorem mem_spriteCells (ox oy row : Nat) (us : List Byte) (k : Nat) :
    k ∈ spriteCells ox oy row us ↔ ∃ r < us.length, ∃ col < 8, (us.getD r 0).getLsbD (7 - col) = true ∧
      k = (oy + (row + r)) % 32 * 64 + (ox + col) % 64 := by
  induction us generalizing row with
  | nil => simp [spriteCells]
  | cons u us ih =>
    rw [spriteCells, List.mem_append, mem_rowCells, ih]
    constructor
    · rintro (⟨col, h1, h2, h3⟩ | ⟨r, hr, col, h1, h2, h3⟩)
      · exact ⟨0, by simp, col, h1, h2, h3⟩
      · exact ⟨r + 1, by simpa using hr, col, h1, h2, by rw [h3, show row + 1 + r = row + (r + 1) by omega]⟩
    · rintro ⟨r, hr, col, h1, h2, h3⟩
      cases r with
      | zero => exact .inl ⟨col, h1, h2, h3⟩
      | succ r =>
        exact .inr ⟨r, by simpa using hr, col, h1, h2, by rw [h3, show row + 1 + r = row + (r + 1) by omega]⟩

theorem nodup_rowCells (ox oy row : Nat) (u : Byte) : (rowCells ox oy row u).Nodup := by
  refine List.Nodup.map_on ?_ (List.Nodup.filter _ (by decide))
  intro a ha b hb h
  have hl : ∀ col ∈ [0, 1, 2, 3, 4, 5, 6, 7], col < 8 := by decide
  have h1 := hl a (List.mem_filter.mp ha).1
  have h2 := hl b (List.mem_filter.mp hb).1
  simp only [cellOf, Config.screenW] at h
  omega

/-- No cell is hit twice: a sprite has at most 16 rows and 8 columns. -/
theorem nodup_spriteCells (ox oy row : Nat) (us : List Byte) (h : us.length ≤ 32) :
    (spriteCells ox oy row us).Nodup := by
  induction us generalizing row with
  | nil => exact List.nodup_nil
  | cons u us ih =>
    simp only [List.length_cons] at h
    refine List.Nodup.append (nodup_rowCells ox oy row u) (ih (row + 1) (by omega)) ?_
    intro k hk hk'
    obtain ⟨c1, -, -, e1⟩ := (mem_rowCells ox oy row u k).mp hk
    obtain ⟨r, hr, c2, -, -, e2⟩ := (mem_spriteCells ox oy (row + 1) us k).mp hk'
    omega

/-- Toggling distinct cells flips exactly those, and the collision says whether one of them was set. -/
theorem foldl_toggleStep (ks : List Nat) (c : Framebuffer × Bool) (hn : ks.Nodup) (hk : ∀ k ∈ ks, k < 2048) :
    (∀ j, (ks.foldl toggleStep c).1.getLsbD j = (c.1.getLsbD j ^^ decide (j ∈ ks))) ∧
      (ks.foldl toggleStep c).2 = (c.2 || ks.any fun k => c.1.getLsbD k) := by
  induction ks generalizing c with
  | nil => simp
  | cons k ks ih =>
    obtain ⟨hk1, hk2⟩ := List.nodup_cons.mp hn
    obtain ⟨h1, h2⟩ := ih (toggleStep c k) hk2 fun j hj => hk j (List.mem_cons_of_mem _ hj)
    have hb := hk k List.mem_cons_self
    rw [List.foldl_cons]
    constructor
    · intro j
      rw [h1, toggleStep, getLsbD_toggleCell _ _ _ hb]
      by_cases e : j = k
      · subst e; simp [hk1]
      · simp [e]
    · rw [h2, toggleStep, List.any_cons, Bool.or_assoc]
      congr 2
      rw [Bool.eq_iff_iff, List.any_eq_true, List.any_eq_true]
      refine exists_congr fun j => and_congr_right fun hj => ?_
      rw [getLsbD_toggleCell _ _ _ hb, decide_eq_false (show ¬ j = k from fun e => hk1 (by rw [← e]; exact hj)), Bool.xor_false]

/-- What drawing a sprite does (R152): it flips exactly the cells its set bits land on, and the collision says whether one
of them was set before. -/
theorem drawRows_spec (ox oy : Nat) (us : List Byte) (f : Framebuffer) (h : us.length ≤ 32) :
    (∀ j, (drawRows ox oy 0 us (f, false)).1.getLsbD j = (f.getLsbD j ^^ decide (j ∈ spriteCells ox oy 0 us))) ∧
      (drawRows ox oy 0 us (f, false)).2 = (spriteCells ox oy 0 us).any fun k => f.getLsbD k := by
  rw [drawRows_eq]
  have hk : ∀ k ∈ spriteCells ox oy 0 us, k < 2048 := by
    intro k hk
    obtain ⟨r, -, col, -, -, rfl⟩ := (mem_spriteCells ox oy 0 us k).mp hk
    omega
  simpa using foldl_toggleStep _ (f, false) (nodup_spriteCells ox oy 0 us h) hk

end Sys2Proof.Machine
end

