-- ==== Sys2Proof/Laws/Events.lean ====
section
/-! SUPPORT. The small lemmas of the driver's events. -/

namespace Sys2Proof.Machine

theorem keyIndexOk_iff (k : Nat) : keyIndexOk k = true ↔ k < 16 := by
  simp [keyIndexOk]

theorem imageOk_iff (image : List Byte) : imageOk loadAddr image = true ↔ image.length ≤ 3584 := by
  simp only [imageOk, decide_eq_true_eq, loadAddr, Config.memSize]
  omega

theorem whenLive_clear {s : State} (h : s.fault = none) (r : Response) : whenLive s r = r := by
  simp [whenLive, h]

theorem whenLive_latched {s : State} (h : s.fault ≠ none) (r : Response) : whenLive s r = .fault .latched := by
  obtain ⟨f, hf⟩ := Option.ne_none_iff_exists'.mp h
  simp [whenLive, hf]

theorem agedTimer_toNat (u : Byte) : (agedTimer u).toNat = u.toNat - 1 := by
  unfold agedTimer
  split
  · rename_i h; subst h; rfl
  · rename_i h
    have h0 : u.toNat ≠ 0 := fun e => h (BitVec.eq_of_toNat_eq e)
    rw [BitVec.toNat_sub_of_le (show 1 ≤ u.toNat by omega)]
    rfl

theorem step_latched {s : State} (h : s.fault ≠ none) : step s = .fault .latched := by
  obtain ⟨f, hf⟩ := Option.ne_none_iff_exists'.mp h
  simp [step, hf]

theorem step_clear {s : State} (h : s.fault = none) : step s = tickBody s := by
  simp [step, h]

end Sys2Proof.Machine
end

