-- ==== Sys2Proof/Laws/PerInstr.lean ====
section
/-! SUPPORT. Statements made per instruction, one lemma per constructor. `OpcodeRow`: the encoded word stands in the
instruction's own row of the opcode map (spec/30_encoding.md rule R74: `w & mask = match`), and the row is in the map. -/

namespace Sys2Proof.Laws.OpcodeRow

/-- `w & mask = match` for the word of the instruction and its row, and the row is one of the 34. -/
def Statement (i : Instr) : Prop := encode i &&& i.row.mask = i.row.pattern ∧ i.row ∈ opcodeMap

theorem cls : Statement .cls := ⟨rfl, Instr.row_mem _⟩

theorem ret : Statement .ret := ⟨rfl, Instr.row_mem _⟩

theorem jp (nnn : Imm12) : Statement (.jp nnn) :=
  ⟨(packNnn_and 0x1#4 nnn).trans rfl, Instr.row_mem _⟩

theorem call (nnn : Imm12) : Statement (.call nnn) :=
  ⟨(packNnn_and 0x2#4 nnn).trans rfl, Instr.row_mem _⟩

theorem seImm (x : Reg) (kk : Byte) : Statement (.seImm x kk) :=
  ⟨(packXkk_and_top 0x3#4 x kk).trans rfl, Instr.row_mem _⟩

theorem sneImm (x : Reg) (kk : Byte) : Statement (.sneImm x kk) :=
  ⟨(packXkk_and_top 0x4#4 x kk).trans rfl, Instr.row_mem _⟩

theorem seReg (x y : Reg) : Statement (.seReg x y) :=
  ⟨(packXyn_and 0x5#4 x y 0x0#4).trans rfl, Instr.row_mem _⟩

theorem ldImm (x : Reg) (kk : Byte) : Statement (.ldImm x kk) :=
  ⟨(packXkk_and_top 0x6#4 x kk).trans rfl, Instr.row_mem _⟩

theorem addImm (x : Reg) (kk : Byte) : Statement (.addImm x kk) :=
  ⟨(packXkk_and_top 0x7#4 x kk).trans rfl, Instr.row_mem _⟩

theorem ldReg (x y : Reg) : Statement (.ldReg x y) :=
  ⟨(packXyn_and 0x8#4 x y 0x0#4).trans rfl, Instr.row_mem _⟩

theorem orReg (x y : Reg) : Statement (.orReg x y) :=
  ⟨(packXyn_and 0x8#4 x y 0x1#4).trans rfl, Instr.row_mem _⟩

theorem andReg (x y : Reg) : Statement (.andReg x y) :=
  ⟨(packXyn_and 0x8#4 x y 0x2#4).trans rfl, Instr.row_mem _⟩

theorem xorReg (x y : Reg) : Statement (.xorReg x y) :=
  ⟨(packXyn_and 0x8#4 x y 0x3#4).trans rfl, Instr.row_mem _⟩

theorem addReg (x y : Reg) : Statement (.addReg x y) :=
  ⟨(packXyn_and 0x8#4 x y 0x4#4).trans rfl, Instr.row_mem _⟩

theorem subReg (x y : Reg) : Statement (.subReg x y) :=
  ⟨(packXyn_and 0x8#4 x y 0x5#4).trans rfl, Instr.row_mem _⟩

theorem shr (x y : Reg) : Statement (.shr x y) :=
  ⟨(packXyn_and 0x8#4 x y 0x6#4).trans rfl, Instr.row_mem _⟩

theorem subnReg (x y : Reg) : Statement (.subnReg x y) :=
  ⟨(packXyn_and 0x8#4 x y 0x7#4).trans rfl, Instr.row_mem _⟩

theorem shl (x y : Reg) : Statement (.shl x y) :=
  ⟨(packXyn_and 0x8#4 x y 0xE#4).trans rfl, Instr.row_mem _⟩

theorem sneReg (x y : Reg) : Statement (.sneReg x y) :=
  ⟨(packXyn_and 0x9#4 x y 0x0#4).trans rfl, Instr.row_mem _⟩

theorem ldI (nnn : Imm12) : Statement (.ldI nnn) :=
  ⟨(packNnn_and 0xA#4 nnn).trans rfl, Instr.row_mem _⟩

theorem jpV0 (nnn : Imm12) : Statement (.jpV0 nnn) :=
  ⟨(packNnn_and 0xB#4 nnn).trans rfl, Instr.row_mem _⟩

theorem rnd (x : Reg) (kk : Byte) : Statement (.rnd x kk) :=
  ⟨(packXkk_and_top 0xC#4 x kk).trans rfl, Instr.row_mem _⟩

theorem drw (x y : Reg) (n : Nibble) : Statement (.drw x y n) :=
  ⟨(packXyn_and_top 0xD#4 x y n).trans rfl, Instr.row_mem _⟩

theorem skp (x : Reg) : Statement (.skp x) :=
  ⟨(packXkk_and 0xE#4 x 0x9E#8).trans rfl, Instr.row_mem _⟩

theorem sknp (x : Reg) : Statement (.sknp x) :=
  ⟨(packXkk_and 0xE#4 x 0xA1#8).trans rfl, Instr.row_mem _⟩

theorem ldFromDt (x : Reg) : Statement (.ldFromDt x) :=
  ⟨(packXkk_and 0xF#4 x 0x07#8).trans rfl, Instr.row_mem _⟩

theorem ldKey (x : Reg) : Statement (.ldKey x) :=
  ⟨(packXkk_and 0xF#4 x 0x0A#8).trans rfl, Instr.row_mem _⟩

theorem ldDt (x : Reg) : Statement (.ldDt x) :=
  ⟨(packXkk_and 0xF#4 x 0x15#8).trans rfl, Instr.row_mem _⟩

theorem ldSt (x : Reg) : Statement (.ldSt x) :=
  ⟨(packXkk_and 0xF#4 x 0x18#8).trans rfl, Instr.row_mem _⟩

theorem addI (x : Reg) : Statement (.addI x) :=
  ⟨(packXkk_and 0xF#4 x 0x1E#8).trans rfl, Instr.row_mem _⟩

theorem ldFont (x : Reg) : Statement (.ldFont x) :=
  ⟨(packXkk_and 0xF#4 x 0x29#8).trans rfl, Instr.row_mem _⟩

theorem ldBcd (x : Reg) : Statement (.ldBcd x) :=
  ⟨(packXkk_and 0xF#4 x 0x33#8).trans rfl, Instr.row_mem _⟩

theorem storeRegs (x : Reg) : Statement (.storeRegs x) :=
  ⟨(packXkk_and 0xF#4 x 0x55#8).trans rfl, Instr.row_mem _⟩

theorem loadRegs (x : Reg) : Statement (.loadRegs x) :=
  ⟨(packXkk_and 0xF#4 x 0x65#8).trans rfl, Instr.row_mem _⟩

end Sys2Proof.Laws.OpcodeRow
end

