-- ==== Sys2Proof/Machine/Assembly.lean ====
section
/-! DEFINITION. The text of an instruction (spec/30_encoding.md rule R79): a mnemonic, then the operands separated by commas,
destination first. It is for readers; the machine works on words and calls nothing here. -/

namespace Sys2Proof.Machine

/-- One hexadecimal digit. -/
def hexDigit (k : Nat) : String :=
  ["0", "1", "2", "3", "4", "5", "6", "7", "8", "9", "A", "B", "C", "D", "E", "F"].getD k ""

/-- `V0` to `V9`, `VA` to `VF`. -/
def regText (x : Reg) : String := "V" ++ hexDigit x.val

/-- The immediate `kk`. -/
def byteText (kk : Byte) : String := "0x" ++ hexDigit (kk.toNat / 16) ++ hexDigit (kk.toNat % 16)

/-- The immediate `nnn`. -/
def immText (nnn : Imm12) : String :=
  "0x" ++ hexDigit (nnn.toNat / 256) ++ hexDigit (nnn.toNat / 16 % 16) ++ hexDigit (nnn.toNat % 16)

/-- The count `n`, in decimal. -/
def countText (n : Nibble) : String := if n.toNat < 10 then hexDigit n.toNat else "1" ++ hexDigit (n.toNat - 10)

/-- A mnemonic with one operand, with two, with three. -/
def text1 (mnemonic a : String) : String := mnemonic ++ " " ++ a
def text2 (mnemonic a b : String) : String := text1 mnemonic a ++ ", " ++ b
def text3 (mnemonic a b c : String) : String := text2 mnemonic a b ++ ", " ++ c

/-- A shift: the second operand only where the ignored field is not 0 (D5). -/
def shiftText (mnemonic : String) (x y : Reg) : String :=
  if y = 0 then text1 mnemonic (regText x) else text2 mnemonic (regText x) (regText y)

/-- The text of an instruction. -/
def instrText : Instr → String
  | .cls => "CLS"
  | .ret => "RET"
  | .jp nnn => text1 "JP" (immText nnn)
  | .call nnn => text1 "CALL" (immText nnn)
  | .seImm x kk => text2 "SE" (regText x) (byteText kk)
  | .sneImm x kk => text2 "SNE" (regText x) (byteText kk)
  | .seReg x y => text2 "SE" (regText x) (regText y)
  | .ldImm x kk => text2 "LD" (regText x) (byteText kk)
  | .addImm x kk => text2 "ADD" (regText x) (byteText kk)
  | .ldReg x y => text2 "LD" (regText x) (regText y)
  | .orReg x y => text2 "OR" (regText x) (regText y)
  | .andReg x y => text2 "AND" (regText x) (regText y)
  | .xorReg x y => text2 "XOR" (regText x) (regText y)
  | .addReg x y => text2 "ADD" (regText x) (regText y)
  | .subReg x y => text2 "SUB" (regText x) (regText y)
  | .shr x y => shiftText "SHR" x y
  | .subnReg x y => text2 "SUBN" (regText x) (regText y)
  | .shl x y => shiftText "SHL" x y
  | .sneReg x y => text2 "SNE" (regText x) (regText y)
  | .ldI nnn => text2 "LD" "I" (immText nnn)
  | .jpV0 nnn => text2 "JP" "V0" (immText nnn)
  | .rnd x kk => text2 "RND" (regText x) (byteText kk)
  | .drw x y n => text3 "DRW" (regText x) (regText y) (countText n)
  | .skp x => text1 "SKP" (regText x)
  | .sknp x => text1 "SKNP" (regText x)
  | .ldFromDt x => text2 "LD" (regText x) "DT"
  | .ldKey x => text2 "LD" (regText x) "K"
  | .ldDt x => text2 "LD" "DT" (regText x)
  | .ldSt x => text2 "LD" "ST" (regText x)
  | .addI x => text2 "ADD" "I" (regText x)
  | .ldFont x => text2 "LD" "F" (regText x)
  | .ldBcd x => text2 "LD" "B" (regText x)
  | .storeRegs x => text2 "LD" "[I]" (regText x)
  | .loadRegs x => text2 "LD" (regText x) "[I]"

end Sys2Proof.Machine
end

