-- ==== Sys2Proof/Tests/Slice0.lean ====
section
/-! SUPPORT. The model's own tests: the well-formedness smoke, decoding of words written out from the encoding table
(spec/30_encoding.md rules R71, R74), one step per instruction with the results of spec/95_test_vectors.md, and for each
obligation with hypotheses a witness that meets them, clause by clause, at the bounds. -/

namespace Sys2Proof.Tests

open Sys2Proof Sys2Proof.Machine

/-! ### Helpers -/

/-- The reset state with the word `w` stored at `pc`. -/
def at200 (w : Word) : State := State.reset.withFetchWord 16 w.toNat

/-- The reset state with `pc = a` and the word `w` stored there. -/
def atAddr (a w : Word) : State := (State.reset.setPc a).withFetchWord 16 w.toNat

/-- One byte stored at `a`. -/
def poke (s : State) (a : Nat) (u : Byte) : State := s.setMem (s.mem.write a u)

/-- A question about the next state of one step; false when there is none. -/
def after (s : State) (p : State → Bool) : Bool :=
  match step s with
  | .next t => p t
  | _ => false

/-- The step from `s` is the fault `(kind, at, word)` with nothing else changed. -/
def Faults (s : State) (kind : FaultKind) (a : Word) (w : Option Word) : Prop :=
  step s = .next { s with fault := some ⟨kind, a, w⟩ }

/-- A question about the state and the outputs after one event. -/
def afterEvent (e : Event) (s : State) (p : State → List Output → Bool) : Bool :=
  match handle e s with
  | .next (t, out) => p t out
  | _ => false

/-- The set pixels among the given (column, row) pairs. -/
def lit (s : State) (ps : List (Nat × Nat)) : Bool := ps.all fun q => s.cell (cellOf q.1 q.2)

/-! ### Well-formedness: what each check refuses -/

/-- R180: index 16 is outside the contract, index 15 is in. -/
theorem test_wf_key_index : keyIndexOk 16 = false ∧ keyIndexOk 15 = true := by decide

/-- R182: 3585 bytes do not fit above 0x200, 3584 do. -/
theorem test_wf_image : imageOk loadAddr (List.replicate 3585 0) = false ∧
    imageOk loadAddr (List.replicate 3584 0) = true := by
  simp only [imageOk, loadAddr, Config.memSize, List.length_replicate]; decide

/-- R73: no field value is illegal. -/
theorem test_wf_instr : Instr.wf (.drw 15 15 15#4) = true ∧ Instr.wf (.jp 0xFFF#12) = true := by decide

/-! ### Decoding: one word per constructor, written out bit by bit from the masks and fields of R71 and R74 -/

theorem test_decode_cls : decode 0b0000000011100000#16 = .instr .cls := by decide
theorem test_decode_ret : decode 0b0000000011101110#16 = .instr .ret := by decide
theorem test_decode_jp : decode 0b0001101010111100#16 = .instr (.jp 0xABC#12) := by decide
theorem test_decode_call : decode 0b0010101010111100#16 = .instr (.call 0xABC#12) := by decide
theorem test_decode_seImm : decode 0b0011000110100101#16 = .instr (.seImm 1 0xA5#8) := by decide
theorem test_decode_sneImm : decode 0b0100000110100101#16 = .instr (.sneImm 1 0xA5#8) := by decide
theorem test_decode_seReg : decode 0b0101000100100000#16 = .instr (.seReg 1 2) := by decide
theorem test_decode_ldImm : decode 0b0110000000000101#16 = .instr (.ldImm 0 5) := by decide
theorem test_decode_addImm : decode 0b0111000110100101#16 = .instr (.addImm 1 0xA5#8) := by decide
theorem test_decode_ldReg : decode 0b1000000100100000#16 = .instr (.ldReg 1 2) := by decide
theorem test_decode_orReg : decode 0b1000000100100001#16 = .instr (.orReg 1 2) := by decide
theorem test_decode_andReg : decode 0b1000000100100010#16 = .instr (.andReg 1 2) := by decide
theorem test_decode_xorReg : decode 0b1000000100100011#16 = .instr (.xorReg 1 2) := by decide
theorem test_decode_addReg : decode 0b1000000000010100#16 = .instr (.addReg 0 1) := by decide
theorem test_decode_subReg : decode 0b1000000100100101#16 = .instr (.subReg 1 2) := by decide
theorem test_decode_shr : decode 0b1000000100100110#16 = .instr (.shr 1 2) := by decide
theorem test_decode_subnReg : decode 0b1000000100100111#16 = .instr (.subnReg 1 2) := by decide
theorem test_decode_shl : decode 0b1000000100101110#16 = .instr (.shl 1 2) := by decide
theorem test_decode_sneReg : decode 0b1001000100100000#16 = .instr (.sneReg 1 2) := by decide
theorem test_decode_ldI : decode 0b1010101010111100#16 = .instr (.ldI 0xABC#12) := by decide
theorem test_decode_jpV0 : decode 0b1011101010111100#16 = .instr (.jpV0 0xABC#12) := by decide
theorem test_decode_rnd : decode 0b1100000110100101#16 = .instr (.rnd 1 0xA5#8) := by decide
theorem test_decode_drw : decode 0b1101000100100101#16 = .instr (.drw 1 2 5#4) := by decide
theorem test_decode_skp : decode 0b1110000110011110#16 = .instr (.skp 1) := by decide
theorem test_decode_sknp : decode 0b1110000110100001#16 = .instr (.sknp 1) := by decide
theorem test_decode_ldFromDt : decode 0b1111000100000111#16 = .instr (.ldFromDt 1) := by decide
theorem test_decode_ldKey : decode 0b1111000100001010#16 = .instr (.ldKey 1) := by decide
theorem test_decode_ldDt : decode 0b1111000100010101#16 = .instr (.ldDt 1) := by decide
theorem test_decode_ldSt : decode 0b1111000100011000#16 = .instr (.ldSt 1) := by decide
theorem test_decode_addI : decode 0b1111000100011110#16 = .instr (.addI 1) := by decide
theorem test_decode_ldFont : decode 0b1111000100101001#16 = .instr (.ldFont 1) := by decide
theorem test_decode_ldBcd : decode 0b1111000100110011#16 = .instr (.ldBcd 1) := by decide
theorem test_decode_storeRegs : decode 0b1111000101010101#16 = .instr (.storeRegs 1) := by decide
theorem test_decode_loadRegs : decode 0b1111000101100101#16 = .instr (.loadRegs 1) := by decide

/-- spec/95 part 4: the undecodable sample words, by family. -/
theorem test_decode_undecodable :
    ([0x0000, 0x00E1, 0x00FF, 0x0123].map decode = List.replicate 4 (.illegal .family0)) ∧
    (decode 0x5121#16 = .illegal .family5 ∧ decode 0x9121#16 = .illegal .family9) ∧
    ([0x8128, 0x812F].map decode = List.replicate 2 (.illegal .family8)) ∧
    ([0xE19F, 0xE1A0].map decode = List.replicate 2 (.illegal .familyE)) ∧
    ([0xF100, 0xF175, 0xF185, 0xFFFF].map decode = List.replicate 4 (.illegal .familyF)) := by decide

/-- Bytes of a list: high byte first (R52), the rest is left over; one byte alone is refused. -/
theorem test_decode_bytes : decodeBytes [0x60, 0x05, 0x61] = (.instr (.ldImm 0 5), [0x61]) ∧
    decodeBytes [0x60] = (.illegal .tooShort, [0x60]) := by decide

/-- The table's numbering of bits, the host's way in. -/
theorem test_decode_table : decodeTableWord 16 0x8014 = some (.addReg 0 1) ∧ decodeTableWord 16 0x5121 = none := by
  decide

/-- The text of three instructions of spec/95 part 3 (R79). -/
theorem test_text : instrText (.drw 0 1 5#4) = "DRW V0, V1, 5" ∧ instrText (.loadRegs 2) = "LD V2, [I]" ∧
    instrText (.ldImm 10 0x2A#8) = "LD VA, 0x2A" := by decide

/-- spec/95 part 4: a sample undecodable word faults with its own word (R76, R93). -/
theorem test_undecodable_faults : Faults (at200 0x5121) .unimplementedOpcode 0x200 (some 0x5121) := rfl

/-! ### Control flow (spec/95 table 2.1) -/

/-- Row 1. -/
theorem test_ret : after { atAddr 0x208 0x00EE with sp := 1, stack := State.reset.stack.set 0 0x202 } (fun t =>
    decide (t.pc = 0x202 ∧ t.sp = 0 ∧ t.stack[0] = 0x202)) = true := by decide
/-- Row 2. -/
theorem test_ret_empty : Faults (at200 0x00EE) .stackUnderflow 0x200 (some 0x00EE) := rfl
/-- Row 5: an odd target. -/
theorem test_jp : step (at200 0x1201) = .next { at200 0x1201 with pc := 0x201 } := rfl
/-- Row 7. -/
theorem test_call : after { atAddr 0x300 0x2ABC with sp := 15 } (fun t =>
    decide (t.stack[15] = 0x302 ∧ t.sp = 16 ∧ t.pc = 0xABC)) = true := by decide
/-- Row 8. -/
theorem test_call_full : Faults { atAddr 0x300 0x2ABC with sp := 16 } .stackOverflow 0x300 (some 0x2ABC) := rfl
/-- Rows 9 and 10. -/
theorem test_seImm : after (atAddr 0x208 0x3100) (fun t => t.pc == 0x20C) = true ∧
    after ((atAddr 0x208 0x3100).setReg 1 4) (fun t => t.pc == 0x20A) = true := by decide
/-- Rows 12 and 13. -/
theorem test_sneImm : after ((at200 0x4008).setReg 0 8) (fun t => t.pc == 0x202) = true ∧
    after ((at200 0x4009).setReg 0 8) (fun t => t.pc == 0x204) = true := by decide
/-- Rows 14 and 15. -/
theorem test_seReg : after (((atAddr 0x300 0x5230).setReg 2 7).setReg 3 7) (fun t => t.pc == 0x304) = true ∧
    after (((atAddr 0x300 0x5230).setReg 2 7).setReg 3 8) (fun t => t.pc == 0x302) = true := by decide
/-- Rows 17 and 18. -/
theorem test_sneReg : after (((atAddr 0x300 0x9230).setReg 2 7).setReg 3 8) (fun t => t.pc == 0x304) = true ∧
    after (((atAddr 0x300 0x9230).setReg 2 7).setReg 3 7) (fun t => t.pc == 0x302) = true := by decide
/-- Row 20. -/
theorem test_jpV0 : after ((at200 0xB300).setReg 0 4) (fun t => t.pc == 0x304) = true := by decide
/-- Row 21: unmasked, the largest pc there is. -/
theorem test_jpV0_unmasked : after ((at200 0xBFFF).setReg 0 0xFF) (fun t => t.pc == 0x10FE) = true := by decide

/-- The bounds of a fetch, below the table: 0xFFE executes, 0xFFF and 0x10FE fault with no word. -/
theorem test_fetch_bounds : step (atAddr 0xFFE 0x1200) = .next { atAddr 0xFFE 0x1200 with pc := 0x200 } ∧
    Faults (State.reset.setPc 0xFFF) .memoryOutOfBounds 0xFFF none ∧
    Faults (State.reset.setPc 0x10FE) .memoryOutOfBounds 0x10FE none := ⟨rfl, rfl, rfl⟩

/-! ### Registers and ALU (spec/95 table 2.2) -/

/-- Row 1. -/
theorem test_ldImm : after (at200 0x6FAB) (fun t => decide (t.reg 15 = 0xAB ∧ t.pc = 0x202)) = true := by decide
/-- Row 2: it wraps and VF stays. -/
theorem test_addImm : after (((at200 0x7001).setReg 0 0xFF).setReg 15 5) (fun t =>
    decide (t.reg 0 = 0 ∧ t.reg 15 = 5)) = true := by decide
/-- Row 5. -/
theorem test_ldReg : after ((at200 0x8430).setReg 3 0x2A) (fun t =>
    decide (t.reg 4 = 0x2A ∧ t.reg 3 = 0x2A)) = true := by decide
/-- Row 6: VF unchanged. -/
theorem test_orReg : after ((((at200 0x8011).setReg 0 0xF0).setReg 1 0x0F).setReg 15 1) (fun t =>
    decide (t.reg 0 = 0xFF ∧ t.reg 15 = 1)) = true := by decide
/-- Row 7. -/
theorem test_andReg : after ((((at200 0x8012).setReg 0 0xF0).setReg 1 0x3C).setReg 15 1) (fun t =>
    decide (t.reg 0 = 0x30 ∧ t.reg 15 = 1)) = true := by decide
/-- Row 8. -/
theorem test_xorReg : after ((((at200 0x8013).setReg 0 0xF0).setReg 1 0x3C).setReg 15 1) (fun t =>
    decide (t.reg 0 = 0xCC ∧ t.reg 15 = 1)) = true := by decide
/-- Rows 11 and 15: carry, and y = 0xF reads the old VF. -/
theorem test_addReg : after (((at200 0x8014).setReg 0 0xFF).setReg 1 1) (fun t =>
      decide (t.reg 0 = 0 ∧ t.reg 15 = 1)) = true ∧
    after (((at200 0x80F4).setReg 0 10).setReg 15 7) (fun t =>
      decide (t.reg 0 = 17 ∧ t.reg 15 = 0)) = true := by decide
/-- Row 16: x = 0xF, the flag overwrites the sum (D11). -/
theorem test_addReg_vf : after (((at200 0x8F14).setReg 15 200).setReg 1 100) (fun t => t.reg 15 == 1) = true := by
  decide
/-- Rows 18 and 19. -/
theorem test_subReg : after (((at200 0x8015).setReg 0 5).setReg 1 5) (fun t =>
      decide (t.reg 0 = 0 ∧ t.reg 15 = 1)) = true ∧
    after ((at200 0x8015).setReg 1 1) (fun t => decide (t.reg 0 = 0xFF ∧ t.reg 15 = 0)) = true := by decide
/-- Rows 22 and 23: x = 0xF (D11). -/
theorem test_subReg_vf : after (((at200 0x8F15).setReg 15 9).setReg 1 3) (fun t => t.reg 15 == 1) = true ∧
    after (((at200 0x8F15).setReg 15 3).setReg 1 9) (fun t => t.reg 15 == 0) = true := by decide
/-- Rows 25 and 26: V[y] - V[x], V[y] not written (D12). -/
theorem test_subnReg : after ((at200 0x8017).setReg 0 1) (fun t => decide (t.reg 0 = 0xFF ∧ t.reg 15 = 0)) = true ∧
    after ((at200 0x8017).setReg 1 0xFF) (fun t =>
      decide (t.reg 0 = 0xFF ∧ t.reg 15 = 1 ∧ t.reg 1 = 0xFF)) = true := by decide
/-- Rows 27 and 28: x = 0xF (D11). -/
theorem test_subnReg_vf : after (((at200 0x8F17).setReg 15 3).setReg 1 9) (fun t => t.reg 15 == 1) = true ∧
    after (((at200 0x8F17).setReg 15 9).setReg 1 3) (fun t => t.reg 15 == 0) = true := by decide
/-- Rows 32 and 33: y is ignored (D10). -/
theorem test_shr : after ((at200 0x8206).setReg 2 0xFF) (fun t => decide (t.reg 2 = 0x7F ∧ t.reg 15 = 1)) = true ∧
    after (((at200 0x8236).setReg 2 6).setReg 3 0xFF) (fun t =>
      decide (t.reg 2 = 3 ∧ t.reg 15 = 0 ∧ t.reg 3 = 0xFF)) = true := by decide
/-- Row 34: x = 0xF, the flag itself is shifted (D11). -/
theorem test_shr_vf : after ((at200 0x8F06).setReg 15 3) (fun t => t.reg 15 == 0) = true := by decide
/-- Rows 37 and 39. -/
theorem test_shl : after ((at200 0x820E).setReg 2 0x80) (fun t => decide (t.reg 2 = 0 ∧ t.reg 15 = 1)) = true ∧
    after ((at200 0x820E).setReg 2 0x7F) (fun t => decide (t.reg 2 = 0xFE ∧ t.reg 15 = 0)) = true := by decide
/-- Rows 40 and 42: x = 0xF (D11). -/
theorem test_shl_vf : after ((at200 0x8F0E).setReg 15 0x80) (fun t => t.reg 15 == 2) = true ∧
    after ((at200 0x8F0E).setReg 15 1) (fun t => t.reg 15 == 0) = true := by decide
/-- Row 43 with the draw left free: V3 is the free byte and the mask 0x0F, and one byte has been drawn. -/
theorem test_rnd : step (at200 0xC30F) =
    .next { at200 0xC30F with pc := 0x202, draws := 1,
                              v := State.reset.v.set 3 (Config.rand8 0 &&& 0x0F) } := by rfl

/-! ### Index register, BCD, bulk transfers (spec/95 tables 2.3 and 2.4) -/

/-- Row 2 of 2.3. -/
theorem test_ldI : after (at200 0xAFFF) (fun t => decide (t.i = 0xFFF ∧ t.pc = 0x202)) = true := by decide
/-- Rows 4 and 5 of 2.3: past 0xFFF, and the wrap at 16 bits (D13). -/
theorem test_addI : after (((at200 0xF21E).setReg 2 1).setI 0xFFF) (fun t =>
      decide (t.i = 0x1000 ∧ t.reg 15 = 0)) = true ∧
    after (((at200 0xF21E).setReg 2 1).setI 0xFFFF) (fun t => t.i == 0) = true := by decide
/-- Rows 9 and 11 of 2.3: only the low nibble counts. -/
theorem test_ldFont : after ((at200 0xF329).setReg 3 0x0A) (fun t => t.i == 0x032) = true ∧
    after ((at200 0xF329).setReg 3 0x1A) (fun t => t.i == 0x032) = true := by decide
/-- The row 123 at 4093, the highest legal I. -/
theorem test_ldBcd : after (((at200 0xF433).setReg 4 123).setI 4093) (fun t =>
    decide ((t.memRead 4093, t.memRead 4094, t.memRead 4095, t.i) = (some 1, some 2, some 3, 4093#16))) = true := by
  decide
/-- The rows 123 at 4094 and at 0xFFFF: nothing written. -/
theorem test_ldBcd_out : Faults (((at200 0xF433).setReg 4 123).setI 4094) .memoryOutOfBounds 0x200 (some 0xF433) ∧
    Faults (((at200 0xF433).setReg 4 123).setI 0xFFFF) .memoryOutOfBounds 0x200 (some 0xF433) := ⟨rfl, rfl⟩
/-- Row 2 with two registers: V0 to V1 stored, the next byte untouched, I unchanged (D14). -/
theorem test_storeRegs : after ((((at200 0xF155).setReg 0 0x10).setReg 1 0x11).setI 0x300) (fun t =>
    decide ((t.memRead 0x300, t.memRead 0x301, t.memRead 0x302, t.i) = (some 0x10, some 0x11, some 0, 0x300#16))) = true :=
  by decide
/-- Row 8: the byte that fits is not written either. -/
theorem test_storeRegs_out : Faults (((at200 0xF155).setReg 0 0x10).setI 4095) .memoryOutOfBounds 0x200 (some 0xF155) := rfl
/-- Row 11: all sixteen, VF the last. -/
theorem test_loadRegs : after ((poke (poke (at200 0xFF65) 0x300 0xA0) 0x30F 0xAF).setI 0x300) (fun t =>
    decide (t.reg 0 = 0xA0 ∧ t.reg 1 = 0 ∧ t.reg 15 = 0xAF ∧ t.i = 0x300)) = true := by decide
/-- Row 13: no register written. -/
theorem test_loadRegs_out : Faults ((poke (at200 0xF165) 4095 0x77).setI 4095) .memoryOutOfBounds 0x200 (some 0xF165) := rfl

/-! ### Display (spec/95 table 2.5) -/

/-- Row 1: every pixel off, VF untouched. -/
theorem test_cls : after { (at200 0x00E0).setReg 15 1 with fb := BitVec.allOnes 2048 } (fun t =>
    decide (t.fb = 0 ∧ t.reg 15 = 1)) = true := by decide +kernel
/-- Row 6: both coordinates wrap, the row by a true modulo (C2); two pixels and no other. -/
theorem test_drw_wrap : after (((poke (at200 0xD011) 0x300 0xC0).setI 0x300).setReg 0 63 |>.setReg 1 31) (fun t =>
    lit t [(63, 31), (0, 31)] && decide (t.reg 15 = 0) &&
      decide (t.fb = BitVec.twoPow 2048 (31 * 64 + 63) ||| BitVec.twoPow 2048 (31 * 64))) = true := by decide +kernel
/-- Rows 3, 10 and 15: a collision clears the pixel and sets VF; no row reads nothing, whatever I is, and clears VF; a
sprite whose last byte is above 4095 faults. -/
theorem test_drw_collision : after { (poke (at200 0xD011) 0x300 0xFF).setI 0x300 with fb := 1 } (fun t =>
      decide (t.fb = 0xFE ∧ t.reg 15 = 1)) = true ∧
    after (((at200 0xD010).setI 0x1000).setReg 15 7) (fun t => decide (t.fb = 0 ∧ t.reg 15 = 0)) = true ∧
    Faults ((at200 0xD01F).setI 4082) .memoryOutOfBounds 0x200 (some 0xD01F) :=
  ⟨by decide +kernel, by decide +kernel, rfl⟩

/-! ### Timers and keys (spec/95 tables 2.6 and 2.7) -/

/-- Row 1. -/
theorem test_ldFromDt : after ((at200 0xF307).setDt 0x42) (fun t => decide (t.reg 3 = 0x42 ∧ t.dt = 0x42)) = true := by
  decide
/-- Row 4. -/
theorem test_ldDt : after ((at200 0xF315).setReg 3 0x42) (fun t => t.dt == 0x42) = true := by decide
/-- Rows 6 and 7: no tone from an instruction. -/
theorem test_ldSt : afterEvent .tick ((at200 0xF318).setReg 3 0x42) (fun t out => t.st == 0x42 && out.isEmpty) = true ∧
    afterEvent .tick ((at200 0xF318).setSt 9) (fun t out => t.st == 0 && out.isEmpty) = true := by decide
/-- Rows 8 and 9. -/
theorem test_skp : after (((at200 0xE39E).setReg 3 5).setKeyFlag 5 true) (fun t => t.pc == 0x204) = true ∧
    after ((((at200 0xE39E).setReg 3 5).setKeyFlag 4 true).setKeyFlag 6 true) (fun t => t.pc == 0x202) = true := by
  decide
/-- Row 12: no masking to the low nibble (D16). -/
theorem test_skp_out : Faults (((at200 0xE39E).setReg 3 0x15).setKeyFlag 5 true) .keyIndexOutOfRange 0x200 (some 0xE39E) := rfl
/-- Rows 13 and 14. -/
theorem test_sknp : after (((at200 0xE3A1).setReg 3 5).setKeyFlag 5 true) (fun t => t.pc == 0x202) = true ∧
    after ((at200 0xE3A1).setReg 3 5) (fun t => t.pc == 0x204) = true := by decide
/-- Row 15. -/
theorem test_sknp_out : Faults ((at200 0xE3A1).setReg 3 0xFF) .keyIndexOutOfRange 0x200 (some 0xE3A1) := rfl
/-- Row 18: the lowest key. -/
theorem test_ldKey : after ((((at200 0xF30A).setKeyFlag 12 true).setKeyFlag 9 true).setKeyFlag 3 true) (fun t =>
    decide (t.reg 3 = 3 ∧ t.pc = 0x202)) = true := by decide
/-- Row 16: no key down, nothing changes. -/
theorem test_ldKey_wait : step (at200 0xF30A) = .next (at200 0xF30A) := rfl

/-- Rows 3, 2 and 1 of 2.7: the tone comes with the step of ST from 1 to 0 alone. -/
theorem test_timerTick : handle .timerTick (State.reset.setSt 1) = .next (State.reset, [.tone]) ∧
    handle .timerTick (State.reset.setDt 1) = .next (State.reset, []) ∧
    handle .timerTick State.reset = .next (State.reset, []) := ⟨rfl, rfl, rfl⟩

/-- Section 2.7: `Load([0x12, 0x00])` from reset; the zero byte is not listed. -/
theorem test_load : handle (.load [0x12, 0x00]) State.reset = .next (State.reset.setMem [(0x200, 0x12)], []) := rfl

/-- Section 2.7: `SetKey(7, true)` from reset, and the event outside the contract. -/
theorem test_setKey : handle (.setKey 7 true) State.reset = .next (State.reset.setKeyFlag 7 true, []) ∧
    handle (.setKey 16 true) State.reset = .refused .keyIndexOutsideContract := ⟨rfl, rfl⟩

/-- R200: `Reset` from a faulted state clears the latch and the memory. -/
theorem test_reset_event : handle .reset { at200 0x6005 with fault := some ⟨.stackOverflow, 0x200, none⟩ } =
    .next (State.reset, []) := rfl

/-- The two steps of the boot (R201) and program P1 of part 3, three Ticks. -/
theorem test_program_p1 : (match handleAll [.reset, .load [0x60, 0x05, 0x61, 0x03, 0x80, 0x14], .tick, .tick, .tick] State.reset with
    | .next (t, out) => decide (t.reg 0 = 8 ∧ t.reg 1 = 3 ∧ t.reg 15 = 0 ∧ t.pc = 0x206 ∧ out = [])
    | _ => false) = true := by decide

/-! ### Witnesses: states and operands that meet the hypotheses of an obligation, one per clause -/

/-- A state whose latch is set. -/
def latchedState : State := { State.reset with fault := some ⟨.unimplementedOpcode, 0x200, some 0x0000⟩ }

/-- EncodeOfDecodedWord. -/
theorem witness_EncodeOfDecodedWord : decode 0x812E#16 = .instr (.shl 1 2) := by decide

/-- DecoderIsTheOpcodeMap: a row with a word in it, and the first row with a word not in it. -/
theorem witness_DecoderIsTheOpcodeMap : (⟨0xF00F#16, 0x800E#16⟩ : OpcodeRow) ∈ opcodeMap ∧
    0x812E#16 &&& 0xF00F#16 = 0x800E#16 ∧ (⟨0xFFFF#16, 0x00E0#16⟩ : OpcodeRow) ∈ opcodeMap ∧
    0x00E1#16 &&& 0xFFFF#16 ≠ 0x00E0#16 := by decide

/-- UndecodableWordsAreExactlyTheListed, second clause. -/
theorem witness_UndecodableWords : (at200 0x8128).fault = none ∧ (at200 0x8128).fetchWord = some 0x8128#16 ∧
    decode 0x8128#16 = .illegal .family8 := by decide

/-- TickRunsTheDecodedInstruction: at 0x200 and at 4094, the last address. -/
theorem witness_TickRuns : ((at200 0x6005).fault = none ∧ (at200 0x6005).pc.toNat ≤ 4094 ∧
      decode (BitVec.ofNat 16 (wordNumberAt (at200 0x6005) (at200 0x6005).pc.toNat)) = .instr (.ldImm 0 5)) ∧
    (atAddr 4094 0x8014).fault = none ∧ (atAddr 4094 0x8014).pc.toNat ≤ 4094 ∧
      decode (BitVec.ofNat 16 (wordNumberAt (atAddr 4094 0x8014) (atAddr 4094 0x8014).pc.toNat)) =
        .instr (.addReg 0 1) := by decide

/-- FetchReadsTheBigEndianWordOrFaults: pc = 4094, and pc = 4095 and 0xFFFF with the latch clear. -/
theorem witness_Fetch : (State.reset.setPc 4094).pc.toNat ≤ 4094 ∧
    ((State.reset.setPc 4095).fault = none ∧ 4095 ≤ (State.reset.setPc 4095).pc.toNat) ∧
    (State.reset.setPc 0xFFFF).fault = none ∧ 4095 ≤ (State.reset.setPc 0xFFFF).pc.toNat := by decide

/-- TickFaultsExactlyByTheTable: a fault of each stage, a Tick with none, another event with a next state, and an event
that goes on while the latch is set. -/
theorem witness_TickFaults : (State.reset.setPc 4095).fault = none ∧
    tickFault (State.reset.setPc 4095) = some ⟨.memoryOutOfBounds, 4095, none⟩ ∧
    tickFault State.reset = some ⟨.unimplementedOpcode, 0x200, some 0x0000⟩ ∧
    tickFault (at200 0x00EE) = some ⟨.stackUnderflow, 0x200, some 0x00EE⟩ ∧
    tickFault (at200 0x6005) = none ∧ Event.timerTick ≠ .tick ∧
    handle .timerTick State.reset = .next (State.reset, []) ∧
    (latchedState.fault ≠ none ∧ handle .reset latchedState = .next (State.reset, [])) := by
  refine ⟨?_, ?_, ?_, ?_, ?_, ?_, ?_, ?_, ?_⟩ <;> first | rfl | decide

/-- What the driver is told: the record of a fault of the instruction's own, and nothing where there is none (R173). -/
theorem test_fault_reported : handle .tick (at200 0x00EE) = .next
      ({ at200 0x00EE with fault := some ⟨.stackUnderflow, 0x200, some 0x00EE⟩ },
        [.faulted ⟨.stackUnderflow, 0x200, some 0x00EE⟩]) ∧
    handle .tick (at200 0x1200) = .next (at200 0x1200, []) := ⟨rfl, rfl⟩

/-- LatchedMachineHasOnlyResetAndDisplay: an event that sets the latch, one that clears it, a latched state, and an
instruction whose own check passes. -/
theorem witness_Latched : (State.reset.fault = none ∧ handle .tick State.reset =
      .next (latchedState, [.faulted ⟨.unimplementedOpcode, 0x200, some 0x0000⟩]) ∧ latchedState.fault ≠ none) ∧
    handle .reset latchedState = .next (State.reset, []) ∧
    ownFault State.reset .cls = none ∧ exec .cls State.reset = .next (State.reset.setPc 0x202) :=
  ⟨⟨rfl, rfl, by decide⟩, rfl, rfl, rfl⟩

/-- OnlyRandomReadsTheDraw. -/
theorem witness_OnlyRandom : ∀ x kk, Instr.cls ≠ .rnd x kk := by intro x kk h; cases h

/-- InstructionsWriteOnlyTheirParts: an instruction that writes each part. -/
theorem witness_WriteParts :
    (exec (.call 2) State.reset = .next { State.reset with pc := 2, sp := 1, stack := State.reset.stack.set 0 0x202 }) ∧
    exec (.ldI 5) State.reset = .next { State.reset with pc := 0x202, i := 5 } ∧
    exec (.ldDt 0) (State.reset.setReg 0 3) = .next { State.reset.setReg 0 3 with pc := 0x202, dt := 3 } ∧
    exec (.ldSt 0) (State.reset.setReg 0 3) = .next { State.reset.setReg 0 3 with pc := 0x202, st := 3 } ∧
    exec (.storeRegs 0) ((State.reset.setI 0x300).setReg 0 3) =
      .next { (State.reset.setI 0x300).setReg 0 3 with pc := 0x202, mem := [(0x300, 3)] } :=
  ⟨rfl, rfl, rfl, rfl, rfl⟩

/-- InstructionsWriteOnlyTheirParts: an own check that passes and one that fails, a register written, and pc moved by a
jump, by a skip, and left alone by the key wait. -/
theorem witness_WriteRegistersPcLatch : ownFault State.reset (.skp 0) = none ∧
    ownFault State.reset .ret = some .stackUnderflow ∧
    exec .ret State.reset = .next { State.reset with fault := some ⟨.stackUnderflow, 0x200, some 0x00EE⟩ } ∧
    exec (.ldImm 3 9) State.reset = .next ((State.reset.setReg 3 9).setPc 0x202) ∧ (3 : Reg) ∈ writtenRegs (.ldImm 3 9) ∧
    exec (.jp 2) State.reset = .next (State.reset.setPc 2) ∧
    exec (.sknp 0) State.reset = .next (State.reset.setPc 0x204) ∧
    exec (.ldKey 0) State.reset = .next State.reset :=
  ⟨rfl, rfl, rfl, rfl, by decide, rfl, rfl, rfl⟩

/-- InstructionsWriteOnlyTheirParts, the framebuffer: glyph 0's top row. -/
theorem witness_WriteFramebuffer : (match exec (.drw 0 1 1) State.reset with
    | .next t => decide (t.fb ≠ State.reset.fb)
    | _ => false) = true := by decide +kernel

/-- InstructionsWriteOnlyTheirParts, the draw counter, for any free byte. -/
theorem witness_WriteDraws : ∃ t, exec (.rnd 0 5) State.reset = .next t ∧ t.draws ≠ State.reset.draws :=
  ⟨_, rfl, by decide⟩

/-- FlagRegisterWrittenOnlyByFlagInstructions: a carry, and VF as an ordinary destination. -/
theorem witness_FlagRegister :
    exec (.addReg 0 0) (State.reset.setReg 0 0x90) =
      .next (((State.reset.setReg 0 0x20).setReg 15 1).setPc 0x202) ∧
    exec (.ldImm 15 7) State.reset = .next ((State.reset.setReg 15 7).setPc 0x202) := ⟨rfl, rfl⟩

/-- OtherInstructionsGoToTheNextAddress: LD B at its highest legal I. -/
theorem witness_OtherInstructions : ownFault (State.reset.setI 4093) (.ldBcd 3) = none ∧ Instr.ldBcd 3 ≠ .ret ∧
    (∀ nnn, Instr.ldBcd 3 ≠ .jp nnn ∧ Instr.ldBcd 3 ≠ .call nnn ∧ Instr.ldBcd 3 ≠ .jpV0 nnn) ∧
    (∀ x kk, Instr.ldBcd 3 ≠ .seImm x kk ∧ Instr.ldBcd 3 ≠ .sneImm x kk) ∧
    (∀ x y, Instr.ldBcd 3 ≠ .seReg x y ∧ Instr.ldBcd 3 ≠ .sneReg x y) ∧
    ∀ x, Instr.ldBcd 3 ≠ .skp x ∧ Instr.ldBcd 3 ≠ .sknp x ∧ Instr.ldBcd 3 ≠ .ldKey x := by
  refine ⟨by decide, by decide, ?_, ?_, ?_, ?_⟩ <;> intros <;> simp

/-- A state one `RET` away from a fetch fault: one live entry, the largest a CALL pushes. -/
def deepState : State := { State.reset with sp := 1, stack := State.reset.stack.set 0 4096 }

/-- ReturnPopsTheReturnAddress: one live entry, sixteen, none; a sane stack; a popped address above 4094. -/
theorem witness_Return : (0 < deepState.sp.val ∧ exec .ret deepState = .next { deepState with sp := 0, pc := 4096 } ∧
      4094 < (4096 : Word).toNat ∧ deepState.fault = none) ∧
    0 < ({ State.reset with sp := 16 } : State).sp.val ∧ State.reset.sp.val = 0 :=
  ⟨⟨by decide, rfl, by decide, rfl⟩, by decide, rfl⟩

/-- ReturnPopsTheReturnAddress, the premise on the live entries. -/
theorem witness_StackSane : StackSane deepState := by unfold StackSane; decide

/-- JumpSetsPc: the target 4095 with the latch clear, and the jump to itself. -/
theorem witness_Jump : (0xFFF#12).toNat = 4095 ∧ exec (.jp 0xFFF) State.reset = .next (State.reset.setPc 4095) ∧
    State.reset.fault = none ∧ State.reset.pc.toNat = (0x200#12).toNat :=
  ⟨rfl, rfl, rfl, rfl⟩

/-- CallPushesTheAdvancedPc and CallThenReturnResumesAfterTheCall: sp = 0 and 15 have room, 16 has none. -/
theorem witness_Call : State.reset.sp.val < 16 ∧ ({ State.reset with sp := 15 } : State).sp.val < 16 ∧
    ({ State.reset with sp := 16 } : State).sp.val = 16 := by decide

/-- SkipsCompareAndSkipOneWord: both branches of each comparison. -/
theorem witness_Skips : (State.reset.reg 1).toNat = (0#8).toNat ∧ (State.reset.reg 1).toNat ≠ (1#8).toNat ∧
    (State.reset.reg 1).toNat = (State.reset.reg 2).toNat ∧
    ((State.reset.setReg 1 7).reg 1).toNat ≠ ((State.reset.setReg 1 7).reg 2).toNat := by decide

/-- JumpWithOffsetAddsV0Unmasked: the smallest sum above 4094 and the largest. -/
theorem witness_JumpV0 : 4094 < (State.reset.reg 0).toNat + (0xFFF#12).toNat ∧
    exec (.jpV0 0xFFF) State.reset = .next (State.reset.setPc 4095) ∧ State.reset.fault = none ∧
    4094 < ((State.reset.setReg 0 255).reg 0).toNat + (0xFFF#12).toNat :=
  ⟨by decide, rfl, rfl, by decide⟩

/-- The `x ≠ 15` of the flag-setting forms, the two sides of their conditions, and the bit positions of the logic forms. -/
theorem witness_Alu : (14 : Reg) ≠ 15 ∧ ¬ 256 ≤ (254#8).toNat + (1#8).toNat ∧ 256 ≤ (255#8).toNat + (1#8).toNat ∧
    (1#8).toNat ≤ (1#8).toNat ∧ ¬ (2#8).toNat ≤ (1#8).toNat ∧
    ¬ 128 ≤ ((State.reset.setReg 15 127).reg 15).toNat ∧ 128 ≤ ((State.reset.setReg 15 128).reg 15).toNat ∧
    (0 < 8 ∧ 7 < 8) := by decide

/-- BcdStoresThreeDigits: I = 4093 and 4094, and addresses on both sides of the digits. -/
theorem witness_Bcd : (State.reset.setI 4093).i.toNat + 2 ≤ 4095 ∧ 4095 < (State.reset.setI 4094).i.toNat + 2 ∧
    4092 < (State.reset.setI 4093).i.toNat ∧ (State.reset.setI 4093).i.toNat + 2 < 4096 := by decide

/-- BulkStoreWritesRegistersZeroToX and BulkLoadReadsRegistersZeroToX: I + x = 4095 and 4096, k = x, and addresses
outside the block. -/
theorem witness_Bulk : (State.reset.setI 4080).i.toNat + (15 : Reg).val ≤ 4095 ∧
    4095 < (State.reset.setI 4081).i.toNat + (15 : Reg).val ∧ (15 : Reg) ≤ 15 ∧ (0 : Reg) ≤ 15 ∧
    4079 < (State.reset.setI 4080).i.toNat ∧ (State.reset.setI 4080).i.toNat + (15 : Reg).val < 4096 := by decide

/-- MemoryPrimitivesReadTheLatestWrite: the last address, the first above it, a readable pair at pc, and none. -/
theorem witness_Memory : State.reset.memRead 4096 = none ∧ 4095 < 4096 ∧ State.reset.memWrite 4096 1 = none ∧ 4095 ≤ 4095 ∧
    (at200 0x6005).memRead (at200 0x6005).pc.toNat = some 0x60 ∧
    (at200 0x6005).memRead ((at200 0x6005).pc.toNat + 1) = some 0x05 ∧
    (State.reset.setPc 4095).memRead ((State.reset.setPc 4095).pc.toNat + 1) = none := by
  refine ⟨?_, ?_, ?_, ?_, ?_, ?_, ?_⟩ <;> first | rfl | decide

/-- FetchSeesABulkStoreAtOnce: program P8's store over its own next word, x = 1, k = 0. -/
theorem witness_FetchSees : (State.reset.setI 0x202).i.toNat + (1 : Reg).val ≤ 4095 ∧ (0 : Reg).val + 1 ≤ (1 : Reg).val ∧
    ((State.reset.setI 0x202).pc + 2).toNat = (State.reset.setI 0x202).i.toNat + (0 : Reg).val := by decide

/-- DrawTogglesExactlyTheSpritePixels: no row with I out of bounds, fifteen rows at the last legal I, one too high, a
blank screen, and origin registers other than VF. -/
theorem witness_Draw : ((0#4).toNat = 0 ∧ 4095 < (State.reset.setI 0xFFFF).i.toNat) ∧
    (State.reset.setI 4081).i.toNat + (15#4).toNat - 1 ≤ 4095 ∧
    (0 < (15#4).toNat ∧ 4095 < (State.reset.setI 4082).i.toNat + (15#4).toNat - 1) ∧
    ((1 : Reg) ≠ 15 ∧ (2 : Reg) ≠ 15) := by decide

/-- The blank screen of the double draw (E4). -/
theorem witness_Blank : ∀ k < 2048, State.reset.cell k = false := by
  intro k _; exact BitVec.getLsbD_zero

/-- DrawTogglesExactlyTheSpritePixels: a pixel that a sprite covers, glyph 0's top left one. -/
theorem witness_Covers : SpriteCovers State.reset 0 1 1#4 0 0 :=
  ⟨0, by decide, 0, by decide, by decide, by decide, by decide⟩

/-- TimerMovesCopyTheByte, the Tick. -/
theorem witness_TimerMoves : handle .tick ((at200 0xF318).setReg 3 1) =
    .next ({ (at200 0xF318).setReg 3 1 with pc := 0x202, st := 1 }, []) := rfl

/-- KeySkipsTestTheKeyLevel: V[x] = 15 and 16. -/
theorem witness_KeySkips : ((State.reset.setReg 3 15).reg 3).toNat = (15 : Fin 16).val ∧
    15 < ((State.reset.setReg 3 16).reg 3).toNat := by decide

/-- KeyWaitTakesTheLeastPressedKey: key 15 alone, key 0 with others above, none. -/
theorem witness_KeyWait : ((State.reset.setKeyFlag 15 true).key[(15 : Fin 16).val] = true ∧
      ∀ j : Fin 16, j < 15 → (State.reset.setKeyFlag 15 true).key[j.val] = false) ∧
    (((State.reset.setKeyFlag 0 true).setKeyFlag 9 true).key[(0 : Fin 16).val] = true ∧
      ∀ j : Fin 16, j < 0 → ((State.reset.setKeyFlag 0 true).setKeyFlag 9 true).key[j.val] = false) ∧
    ∀ k : Fin 16, State.reset.key[k.val] = false := by decide

/-- TimerTickAgesBothTimers: a clear latch, a set one, and an event that gives a tone. -/
theorem witness_TimerTick : State.reset.fault = none ∧ latchedState.fault ≠ none ∧
    handle .timerTick (State.reset.setSt 1) = .next (State.reset, [.tone]) ∧ Output.tone ∈ [Output.tone] :=
  ⟨rfl, by decide, rfl, by decide⟩

/-- SetKeyWritesOneFlag: index 15 on a clear latch (set as it already is), index 16 on a clear latch, and a set latch. -/
theorem witness_SetKey : State.reset.fault = none ∧ State.reset.key[(15 : Fin 16).val] = false ∧ (14 : Fin 16) ≠ 15 ∧
    16 ≤ 16 ∧ latchedState.fault ≠ none := by decide

/-- LoadCopiesTheImage: the longest image, one byte more, its first byte, addresses outside it, and a set latch. -/
theorem witness_Load : State.reset.fault = none ∧ (List.replicate 3584 (7 : Byte)).length ≤ 3584 ∧
    (List.replicate 3584 (7 : Byte))[0]? = some 7 ∧ 3584 < (List.replicate 3585 (7 : Byte)).length ∧
    0x1FF < 0x200 ∧ 0x200 + (List.replicate 3584 (7 : Byte)).length ≤ 4096 ∧ latchedState.fault ≠ none := by
  simp only [List.length_replicate]; decide

/-- EventsOutsideTheContractAreRefusedFirst: a set latch with index 16, and with an image of 3585 bytes (log 4). -/
theorem witness_RefusedFirst : latchedState.fault ≠ none ∧ 16 ≤ 16 ∧
    handle (.setKey 16 true) latchedState = .refused .keyIndexOutsideContract ∧
    3584 < (List.replicate 3585 (7 : Byte)).length :=
  ⟨by decide, by decide, rfl, by rw [List.length_replicate]; decide⟩

/-- The refusal of the image of 3585 bytes, with the latch set and clear. -/
theorem witness_RefusedImage : handle (.load (List.replicate 3585 7)) latchedState = .refused .imageTooLong ∧
    handle (.load (List.replicate 3585 7)) State.reset = .refused .imageTooLong := by
  simp only [handle, load, imageOk, loadAddr, Config.memSize, List.length_replicate]
  exact ⟨rfl, rfl⟩

/-- ResetPutsEveryPartToItsValue: the last font byte, the first byte above it, the last byte. -/
theorem witness_Reset : State.reset.memRead 79 = some 0x80 ∧ State.reset.memRead 80 = some 0 ∧
    State.reset.memRead 4095 = some 0 ∧ (79 < 80 ∧ 80 ≤ 80 ∧ 4095 ≤ 4095) := by decide

/-- BootFetchesTheFirstTwoImageBytes: the longest tail. -/
theorem witness_Boot : (List.replicate 3582 (0 : Byte)).length ≤ 3582 := by
  rw [List.length_replicate]

/-- StepKeepsMemoryCanonical: a state whose memory lists bytes, with a next state. -/
theorem witness_Canonical : (at200 0x6005).mem = [(0x200, 0x60), (0x201, 0x05)] ∧ (at200 0x6005).mem.wf = true ∧
    step (at200 0x6005) = .next ((at200 0x6005).setReg 0 5 |>.setPc 0x202) := ⟨rfl, rfl, rfl⟩

/-- StepKeepsTheInvariant: a state at the last fetchable address, one live entry, that meets the invariant and steps. -/
theorem witness_Invariant : Inv { deepState with mem := [(4094, 0x12)], pc := 4094 } ∧
    step { deepState with mem := [(4094, 0x12)], pc := 4094 } = .next { deepState with mem := [(4094, 0x12)] } :=
  ⟨⟨by decide, by decide, by unfold StackSane; decide, by intro r hr; cases hr⟩, rfl⟩

/-- StepKeepsTheInvariant, the events: each from a state that meets the invariant, with a next state. -/
theorem witness_Invariant_events : Inv State.reset ∧ handle .reset State.reset = .next (State.reset, []) ∧
    handle (.load [0x12]) State.reset = .next (State.reset.setMem [(0x200, 0x12)], []) ∧
    handle (.setKey 15 true) State.reset = .next (State.reset.setKeyFlag 15 true, []) ∧
    handle .tick State.reset = .next (latchedState, [.faulted ⟨.unimplementedOpcode, 0x200, some 0x0000⟩]) ∧
    handle .timerTick State.reset = .next (State.reset, []) ∧
    handle .getDisplay State.reset = .next (State.reset, [.display State.reset.cells]) :=
  ⟨⟨by decide, by decide, by unfold StackSane; decide, by intro r hr; cases hr⟩, rfl, rfl, rfl, rfl, rfl, rfl⟩

/-- A latched state meets the invariant too. -/
theorem witness_Invariant_latched : Inv latchedState :=
  ⟨by decide, by decide, by unfold StackSane; decide, by intro r hr; cases hr; decide⟩

/-- ReachableStatesMeetTheInvariant: reset itself, and a loaded program after two events. -/
theorem witness_Reachable : Reachable State.reset ∧ Reachable (State.reset.setMem [(0x200, 0x12)]) :=
  ⟨⟨[], [], rfl⟩, [.reset, .load [0x12, 0x00]], [], rfl⟩

/-- FinishedProgramStaysFinished: 0x1200 at 0x200, and a jump to itself at 4094. -/
theorem witness_Finished : ((at200 0x1200).fault = none ∧ (at200 0x1200).finished = true) ∧
    (atAddr 4094 0x1FFE).fault = none ∧ (atAddr 4094 0x1FFE).finished = true := by decide

/-- The same word under a set latch is no finished run (R173). -/
theorem test_faulted_not_finished :
    ({ at200 0x1200 with fault := some ⟨.stackOverflow, 0x200, none⟩ } : State).finished = false := rfl

end Sys2Proof.Tests
end

/-! Scope (spec/00_scope.md): every event of the driver keeps the invariant, so every reachable state meets it.
First the encoder as the inverse of the decoder, since a fault of an instruction's own check records the encoded word;
then what an instruction can do, said once; then the invariant along a `Tick`, an event and a run. -/

namespace Sys2Proof

/-! ### The encoder gives back the decoded word (R71, R74, R75) -/

theorem encode_eq_of_decode0 {w : Word} {i : Instr} (h : decode0 w = .instr i) : encode i = w := by
  unfold decode0 at h
  split at h
  · cases h; exact Eq.symm ‹_›
  · split at h
    · cases h; exact Eq.symm ‹_›
    · cases h

theorem encode_eq_of_decode8 {x y : Reg} {n : Nibble} {i : Instr} (h : decode8 x y n = .instr i) :
    encode i = packXyn 0x8#4 x y n := by
  unfold decode8 at h
  split at h <;> cases h <;> rfl

theorem encode_eq_of_decodeE {x : Reg} {kk : Byte} {i : Instr} (h : decodeE x kk = .instr i) :
    encode i = packXkk 0xE#4 x kk := by
  unfold decodeE at h
  split at h <;> cases h <;> rfl

theorem encode_eq_of_decodeF {x : Reg} {kk : Byte} {i : Instr} (h : decodeF x kk = .instr i) :
    encode i = packXkk 0xF#4 x kk := by
  unfold decodeF at h
  split at h <;> cases h <;> rfl

/-- The field lemmas with the opcode nibble given by a case of the decoder. -/
theorem packNnn_of_nib1 {w : Word} {op : Nibble} (h : nib1 w = op) : packNnn op (immNnn w) = w := h ▸ packNnn_fields w

theorem packXkk_of_nib1 {w : Word} {op : Nibble} (h : nib1 w = op) : packXkk op (regX w) (immKk w) = w :=
  h ▸ packXkk_fields w

theorem packXyn_of_nibs {w : Word} {op n : Nibble} (h1 : nib1 w = op) (h4 : nib4 w = n) :
    packXyn op (regX w) (regY w) n = w :=
  h1 ▸ h4 ▸ packXyn_fields w

theorem encode_eq_of_decode {w : Word} {i : Instr} (h : decode w = .instr i) : encode i = w := by
  unfold decode at h
  split at h
  case h_1 => exact encode_eq_of_decode0 h
  case h_2 hn | h_3 hn | h_11 hn | h_12 hn => cases h; exact packNnn_of_nib1 hn
  case h_4 hn | h_5 hn | h_7 hn | h_8 hn | h_13 hn => cases h; exact packXkk_of_nib1 hn
  case h_6 hn | h_10 hn =>
    split at h
    · cases h; exact packXyn_of_nibs hn ‹_›
    · cases h
  case h_9 hn => exact (encode_eq_of_decode8 h).trans (packXyn_of_nibs hn rfl)
  case h_14 hn => cases h; exact packXyn_of_nibs hn rfl
  case h_15 hn => exact (encode_eq_of_decodeE h).trans (packXkk_of_nib1 hn)
  case h_16 =>
    have hn : nib1 w = 0xF#4 := by
      simp only [imp_false] at *
      bv_omega
    exact (encode_eq_of_decodeF h).trans (packXkk_of_nib1 hn)

end Sys2Proof

namespace Sys2Proof.Machine

variable {s t : State}

/-! ### What an instruction can do -/

/-- Where a completed instruction leaves `pc` and the call stack. -/
inductive Flow (s t : State) : Prop where
  /-- Waiting, going on to the next instruction, or skipping it (R92, R103, R165). -/
  | onward (hpc : t.pc ∈ [s.pc, s.pc + 2, s.pc + 4]) (hstack : t.stack = s.stack) (hsp : t.sp = s.sp)
  /-- `JP` (with the offset 0) and `JP V0` (R101, R107). -/
  | jump (offset : Byte) (nnn : Imm12) (hpc : t.pc = zextByte offset + zextImm nnn) (hstack : t.stack = s.stack)
      (hsp : t.sp = s.sp)
  /-- `CALL` with room on the stack (R102). -/
  | call (nnn : Imm12) (hroom : s.sp.val < 16) (hpc : t.pc = zextImm nnn)
      (hstack : t.stack = s.stack.set s.sp.val (s.pc + 2)) (hsp : t.sp.val = s.sp.val + 1)
  /-- `RET` with a live entry (R100). -/
  | ret (hlive : 0 < s.sp.val) (hpc : t.pc = s.stack[s.sp.val - 1]) (hstack : t.stack = s.stack)
      (hsp : t.sp.val = s.sp.val - 1)

/-- The memory of `t` is that of `s`, or that with one block stored inside the address space (R55, R57). -/
def MemoryStored (s t : State) : Prop :=
  t.mem = s.mem ∨ ∃ (base : Nat) (us : List Byte), base + us.length ≤ Config.memSize ∧ t.mem = s.mem.writeMany base us

/-- An instruction has completed: the latch is as before, memory and control flow as an instruction changes them. -/
structure Completes (s t : State) : Prop where
  latch : t.fault = s.fault
  memory : MemoryStored s t
  flow : Flow s t

/-- A completed instruction that goes on to the next one and leaves memory, stack and latch alone. -/
theorem Completes.of_next (hfault : t.fault = s.fault) (hmem : t.mem = s.mem) (hpc : t.pc = s.pc + 2)
    (hstack : t.stack = s.stack) (hsp : t.sp = s.sp) : Completes s t :=
  ⟨hfault, .inl hmem, .onward (by simp [hpc]) hstack hsp⟩

theorem Completes.of_skipIf (c : Bool) : Completes s (s.advance.skipIf c) := by
  rw [State.skipIf_eq]
  refine ⟨rfl, .inl rfl, .onward ?_ rfl rfl⟩
  cases c <;> simp [BitVec.add_assoc]

theorem Completes.of_writeBytes {base : Nat} {us : List Byte}
    (h : s.advance.writeBytes base us = some t) (hus : us ≠ []) : Completes s t := by
  rw [State.writeBytes_eq] at h
  split at h
  · rename_i hspan
    cases h
    exact ⟨rfl, .inr ⟨base, us, hspan.resolve_left (by simpa using hus), rfl⟩, .onward (by simp) rfl rfl⟩
  · cases h

theorem execRet_cases (h : execRet s = .next t) :
    (∃ k, t = s.takeFault k (some (encode .ret))) ∨ Completes s t := by
  unfold execRet at h
  by_cases hlive : 0 < s.sp.val
  · rw [State.pop_live s.advance hlive] at h
    cases h
    exact .inr ⟨rfl, .inl rfl, .ret hlive rfl rfl rfl⟩
  · rw [State.pop_empty s.advance (show s.sp.val = 0 by omega)] at h
    cases h
    exact .inl ⟨_, rfl⟩

theorem execCall_cases {nnn : Imm12} (h : execCall nnn s = .next t) :
    (∃ k, t = s.takeFault k (some (encode (.call nnn)))) ∨ Completes s t := by
  unfold execCall at h
  by_cases hroom : s.sp.val < 16
  · rw [State.push_room s.advance _ hroom] at h
    cases h
    exact .inr ⟨rfl, .inl rfl, .call nnn hroom rfl rfl rfl⟩
  · rw [State.push_full s.advance _ (show s.sp.val = 16 by omega)] at h
    cases h
    exact .inl ⟨_, rfl⟩

/-- An instruction faults with its own word, or completes. -/
theorem exec_cases {i : Instr} (h : exec i s = .next t) :
    (∃ k, t = s.takeFault k (some (encode i))) ∨ Completes s t := by
  cases i
  case cls | ldImm | addImm | ldReg | orReg | andReg | xorReg | addReg | subReg | shr | subnReg | shl | ldI | rnd
      | ldFromDt | ldDt | ldSt | addI | ldFont =>
    cases h; exact .inr (.of_next rfl rfl rfl rfl rfl)
  case seImm | sneImm | seReg | sneReg => cases h; exact .inr (.of_skipIf _)
  case jp nnn => cases h; exact .inr ⟨rfl, .inl rfl, .jump 0 nnn (by simp [zextByte]) rfl rfl⟩
  case jpV0 nnn => cases h; exact .inr ⟨rfl, .inl rfl, .jump _ nnn rfl rfl rfl⟩
  case call => exact execCall_cases h
  case ret => exact execRet_cases h
  case drw | loadRegs =>
    simp only [exec, execDrw, execLoadRegs] at h
    split at h
    · cases h; exact .inl ⟨_, rfl⟩
    · cases h; exact .inr (.of_next rfl rfl rfl rfl rfl)
  case ldBcd x =>
    simp only [exec, execLdBcd] at h
    split at h
    · cases h; exact .inl ⟨_, rfl⟩
    · rename_i hw; cases h; exact .inr (.of_writeBytes hw (by simp [bcdDigits]))
  case storeRegs x =>
    simp only [exec, execStoreRegs] at h
    split at h
    · cases h; exact .inl ⟨_, rfl⟩
    · rename_i hw; cases h; exact .inr (.of_writeBytes hw (List.ne_nil_of_length_eq_add_one (s.length_firstRegs x)))
  case skp | sknp =>
    simp only [exec, execSkp, execSknp] at h
    split at h
    · cases h; exact .inl ⟨_, rfl⟩
    · cases h; exact .inr (.of_skipIf _)
  case ldKey x =>
    simp only [exec, execLdKey] at h
    split at h
    · cases h; exact .inr (.of_next rfl rfl rfl rfl rfl)
    · cases h; exact .inr ⟨rfl, .inl rfl, .onward (by simp) rfl rfl⟩

/-! ### The invariant along a `Tick` -/

theorem MemoryStored.wf (h : MemoryStored s t) (hs : s.mem.wf = true) : t.mem.wf = true := by
  obtain hmem | ⟨base, us, hspan, hmem⟩ := h
  · rw [hmem]; exact hs
  · rw [hmem]; exact Memory.wf_writeMany us hs hspan

theorem StackSane.mono (hs : StackSane s) (hstack : t.stack = s.stack) (hsp : t.sp.val ≤ s.sp.val) : StackSane t := by
  intro k hk
  rw [hstack]
  exact hs k (by omega)

theorem StackSane.push {a : Word} (hs : StackSane s) (hroom : s.sp.val < 16) (ha : 2 ≤ a.toNat ∧ a.toNat ≤ 4096)
    (hstack : t.stack = s.stack.set s.sp.val a) (hsp : t.sp.val = s.sp.val + 1) : StackSane t := by
  intro k hk
  rw [hstack, Vector.getElem_set]
  split
  · exact ha
  · exact hs k (by omega)

theorem Flow.stackSane (h : Flow s t) (hs : StackSane s) (hpc : s.pc.toNat ≤ 4094) : StackSane t := by
  cases h with
  | onward _ hstack hsp => exact hs.mono hstack (by omega)
  | jump _ _ _ hstack hsp => exact hs.mono hstack (by omega)
  | call _ hroom _ hstack hsp => exact hs.push hroom (by bv_omega) hstack hsp
  | ret _ _ hstack hsp => exact hs.mono hstack (by omega)

theorem zextImm_toNat (nnn : Imm12) : (zextImm nnn).toNat = nnn.toNat :=
  BitVec.toNat_setWidth_of_le (by decide)

theorem zextByte_toNat (u : Byte) : (zextByte u).toNat = u.toNat :=
  BitVec.toNat_setWidth_of_le (by decide)

/-- The bound 0x10FE is 255 + 4095, the farthest `JP V0` goes. -/
theorem Flow.pc_le (h : Flow s t) (hs : StackSane s) (hpc : s.pc.toNat ≤ 4094) : t.pc.toNat ≤ 0x10FE := by
  cases h with
  | onward hpc' _ _ =>
    simp only [List.mem_cons, List.not_mem_nil, or_false] at hpc'
    bv_omega
  | jump offset nnn hpc' _ _ =>
    rw [hpc', BitVec.toNat_add, zextByte_toNat, zextImm_toNat]
    omega
  | call nnn _ hpc' _ _ =>
    rw [hpc', zextImm_toNat]
    omega
  | ret hlive hpc' _ _ =>
    have hk := hs ⟨s.sp.val - 1, by omega⟩ (Nat.sub_lt hlive Nat.one_pos)
    rw [hpc']
    exact hk.2.trans (by decide)

theorem LatchPrecise.of_clear (h : s.fault = none) : LatchPrecise s := by
  intro r hr
  rw [h] at hr
  cases hr

theorem Inv.of_completes (hs : Inv s) (hclear : s.fault = none) (hpc : s.pc.toNat ≤ 4094) (h : Completes s t) : Inv t where
  memory := h.memory.wf hs.memory
  pc := h.flow.pc_le hs.stack hpc
  stack := h.flow.stackSane hs.stack hpc
  latch := .of_clear (h.latch.trans hclear)

/-- A fault freezes the state, so only the latch is new, and it is precise when it records the word a fetch reads. -/
theorem Inv.takeFault (hs : Inv s) (k : FaultKind) {w : Option Word} (hw : s.fetchWord = w) : Inv (s.takeFault k w) where
  memory := hs.memory
  pc := hs.pc
  stack := hs.stack
  latch := by
    intro r hr
    cases hr
    exact ⟨rfl, hw.symm⟩

theorem pc_le_of_fetchWord {w : Word} (h : s.fetchWord = some w) : s.pc.toNat ≤ 4094 := by
  rw [State.fetchWord_eq] at h
  split at h
  · assumption
  · cases h

theorem Inv.runWord {w : Word} (hs : Inv s) (hclear : s.fault = none) (hw : s.fetchWord = some w)
    (h : runWord w s = .next t) : Inv t := by
  unfold Machine.runWord at h
  split at h
  · rename_i i hi
    rw [← encode_eq_of_decode hi] at hw
    obtain ⟨k, rfl⟩ | hdone := exec_cases h
    · exact hs.takeFault k hw
    · exact hs.of_completes hclear (pc_le_of_fetchWord hw) hdone
  · cases h
    exact hs.takeFault _ hw

theorem Inv.tickBody (hs : Inv s) (hclear : s.fault = none) (h : tickBody s = .next t) : Inv t := by
  unfold Machine.tickBody at h
  split at h
  · cases h
    exact hs.takeFault _ ‹_›
  · exact hs.runWord hclear ‹_› h

theorem fault_of_step (h : step s = .next t) : s.fault = none := by
  by_contra hset
  rw [step_latched hset] at h
  cases h

theorem Inv.step (hs : Inv s) (h : step s = .next t) : Inv t := by
  have hclear := fault_of_step h
  rw [step_clear hclear] at h
  exact hs.tickBody hclear h

/-! ### The invariant along the other events -/

/-- An event that requires a clear latch has a next state only with the latch clear. -/
theorem whenLive_next {r : Response} {p : State × List Output} (h : whenLive s r = .next p) :
    s.fault = none ∧ r = .next p := by
  by_cases hclear : s.fault = none
  · exact ⟨hclear, (whenLive_clear hclear r).symm.trans h⟩
  · rw [whenLive_latched hclear] at h
    cases h

theorem inv_resetEvent (s : State) : Inv (resetEvent s) where
  memory := Memory.wf_reset
  pc := show State.reset.pc.toNat ≤ 0x10FE by decide
  stack := fun k hk => absurd hk (Nat.not_lt_zero _)
  latch := .of_clear rfl

theorem inv_reset : Inv State.reset := inv_resetEvent State.reset

variable {out : List Output}

theorem Inv.load {image : List Byte} (hs : Inv s) (h : load image s = .next (t, out)) : Inv t := by
  unfold Machine.load at h
  split at h
  · rename_i hfits
    obtain ⟨hclear, hnext⟩ := whenLive_next h
    cases hnext
    exact ⟨Memory.wf_writeMany image hs.memory (by simpa [imageOk] using hfits), hs.pc, hs.stack, .of_clear hclear⟩
  · cases h

theorem Inv.setKey {index : Nat} {pressed : Bool} (hs : Inv s) (h : setKey index pressed s = .next (t, out)) :
    Inv t := by
  unfold Machine.setKey at h
  split at h
  · obtain ⟨-, hnext⟩ := whenLive_next h
    cases hnext
    exact ⟨hs.memory, hs.pc, hs.stack, hs.latch⟩
  · cases h

theorem Inv.timerTick (hs : Inv s) (h : timerTick s = .next (t, out)) : Inv t := by
  obtain ⟨-, hnext⟩ := whenLive_next h
  cases hnext
  exact ⟨hs.memory, hs.pc, hs.stack, hs.latch⟩

theorem Inv.tickEvent (hs : Inv s) (h : tickEvent s = .next (t, out)) : Inv t := by
  unfold Machine.tickEvent at h
  split at h
  · cases h
    exact hs.step ‹_›
  · cases h
  · cases h

theorem Inv.handle {e : Event} (hs : Inv s) (h : handle e s = .next (t, out)) : Inv t := by
  cases e with
  | reset => cases h; exact inv_resetEvent s
  | load image => exact hs.load h
  | setKey index pressed => exact hs.setKey h
  | tick => exact hs.tickEvent h
  | timerTick => exact hs.timerTick h
  | getDisplay => cases h; exact hs

/-- Settles O50: `exec_cases` says what an instruction can do, and each event keeps the invariant. -/
theorem stepKeepsTheInvariant : Obligations.StepKeepsTheInvariant :=
  ⟨fun _ _ hs h => hs.step h, fun _ _ _ _ hs h => hs.handle h⟩

/-! ### Reachable states -/

/-- A run of several events that ends in a next state has one after its first event too. -/
theorem handleAll_cons_next {e : Event} {es : List Event} (h : handleAll (e :: es) s = .next (t, out)) :
    ∃ u first more, handle e s = .next (u, first) ∧ handleAll es u = .next (t, more) := by
  unfold handleAll at h
  split at h
  · rename_i u first hfirst
    split at h
    · rename_i t' more hmore
      cases h
      exact ⟨u, first, more, hfirst, hmore⟩
    · cases h
    · cases h
  · cases h
  · cases h

theorem Inv.handleAll {es : List Event} (hs : Inv s) (h : handleAll es s = .next (t, out)) : Inv t := by
  induction es generalizing s out with
  | nil => cases h; exact hs
  | cons e es ih =>
    obtain ⟨u, first, more, hfirst, hmore⟩ := handleAll_cons_next h
    exact ih (hs.handle hfirst) hmore

/-- Settles O51, by induction on the events from reset. -/
theorem reachableStatesMeetTheInvariant : Obligations.ReachableStatesMeetTheInvariant := by
  rintro s ⟨es, out, h⟩
  exact inv_reset.handleAll h

end Sys2Proof.Machine

/-! The state (spec/10_state.md): which parts each instruction writes, where it leaves `pc`, what the latch stops, and the
reset values. First the frame of every update of the state, then one equation per instruction that is not a plain update,
then what a completed instruction does, said once for all 34; the statements are read off from there. -/

namespace Sys2Proof.Machine

variable {s t u : State} {i : Instr}

/-! ### Frames -/

section Frames

variable {ps qs : List Part} {rs zs : List Reg}

theorem OnlyChanges.trans (h : OnlyChanges ps rs s t) (h' : OnlyChanges qs zs t u) :
    OnlyChanges (ps ++ qs) (rs ++ zs) s u := by
  obtain ⟨hparts, hregs⟩ := h
  obtain ⟨hparts', hregs'⟩ := h'
  refine ⟨fun p hp => ?_, fun r hr => ?_⟩
  · obtain ⟨hps, hqs⟩ := not_or.mp (mt List.mem_append.mpr hp)
    have h1 := hparts p hps
    have h2 := hparts' p hqs
    cases p
    case memory => exact fun a => (h2 a).trans (h1 a)
    all_goals exact Eq.trans h2 h1
  · obtain ⟨hrs, hzs⟩ := not_or.mp (mt List.mem_append.mpr hr)
    exact (hregs' r hzs).trans (hregs r hrs)

theorem OnlyChanges.refl (s : State) : OnlyChanges [] [] s s :=
  ⟨fun p _ => by cases p <;> simp [Part.same], fun _ _ => rfl⟩

theorem OnlyChanges.mono (h : OnlyChanges ps rs s t) (hp : ps ⊆ qs) (hr : rs ⊆ zs) : OnlyChanges qs zs s t :=
  ⟨fun p hq => h.1 p (mt (@hp p) hq), fun r hz => h.2 r (mt (@hr r) hz)⟩

end Frames

variable (s)

theorem State.setPc_frame (a : Word) : OnlyChanges [.pc] [] s (s.setPc a) :=
  ⟨fun p hp => by cases p <;> simp_all [Part.same, State.memRead], fun _ _ => rfl⟩

theorem State.advance_frame : OnlyChanges [.pc] [] s s.advance := s.setPc_frame _

theorem State.setReg_frame (r : Reg) (b : Byte) : OnlyChanges [] [r] s (s.setReg r b) :=
  ⟨fun p _ => by cases p <;> simp [Part.same, State.memRead], fun q hq => by simp_all⟩

theorem State.setI_frame (a : Word) : OnlyChanges [.index] [] s (s.setI a) :=
  ⟨fun p hp => by cases p <;> simp_all [Part.same, State.memRead], fun _ _ => rfl⟩

theorem State.setMem_frame (m : Memory) : OnlyChanges [.memory] [] s (s.setMem m) :=
  ⟨fun p hp => by cases p <;> simp_all [Part.same], fun _ _ => rfl⟩

theorem State.setFb_frame (f : Framebuffer) : OnlyChanges [.framebuffer] [] s (s.setFb f) :=
  ⟨fun p hp => by cases p <;> simp_all [Part.same, State.memRead], fun _ _ => rfl⟩

theorem State.setDt_frame (b : Byte) : OnlyChanges [.delayTimer] [] s (s.setDt b) :=
  ⟨fun p hp => by cases p <;> simp_all [Part.same, State.memRead], fun _ _ => rfl⟩

theorem State.setSt_frame (b : Byte) : OnlyChanges [.soundTimer] [] s (s.setSt b) :=
  ⟨fun p hp => by cases p <;> simp_all [Part.same, State.memRead], fun _ _ => rfl⟩

theorem State.countDraw_frame : OnlyChanges [.draws] [] s s.countDraw :=
  ⟨fun p hp => by cases p <;> simp_all [Part.same, State.memRead], fun _ _ => rfl⟩

theorem State.takeFault_frame (k : FaultKind) (w : Option Word) : OnlyChanges [.latch] [] s (s.takeFault k w) :=
  ⟨fun p hp => by cases p <;> simp_all [Part.same, State.memRead], fun _ _ => rfl⟩

theorem State.setResultThenFlag_frame (x : Reg) (b : Byte) (c : Bool) :
    OnlyChanges [] [x, vf] s (s.setResultThenFlag x b c) :=
  (s.setReg_frame x b).trans (State.setReg_frame _ vf _)

theorem State.setFlagThenShift_frame (x : Reg) (c : Bool) (f : Byte → Byte) :
    OnlyChanges [] [x, vf] s (s.setFlagThenShift x c f) :=
  ((s.setReg_frame vf _).trans (State.setReg_frame _ x _)).mono (by simp) (by simp)

/-- A bulk load of `x + 1` bytes writes V0 to Vx (R145). -/
theorem State.fillRegs_frame (x : Reg) {us : List Byte} (h : us.length = x.val + 1) :
    OnlyChanges [] ((List.finRange 16).filter (· ≤ x)) s (s.fillRegs us) := by
  refine ⟨fun p _ => by cases p <;> simp [Part.same, State.memRead], fun r hr => ?_⟩
  have hxr : x.val < r.val := by simpa using hr
  rw [State.fillRegs_reg s us (by omega), if_neg (by omega)]

/-! ### The instructions with a check, a skip or a wait -/

/-- An instruction whose own check fails faults with its word, and does nothing else (R171, R172, R173). -/
theorem exec_of_ownFault {k : FaultKind} (h : ownFault s i = some k) : exec i s = faultIn i k s := by
  cases i
  case ret =>
    obtain ⟨hsp, rfl⟩ : s.sp.val = 0 ∧ FaultKind.stackUnderflow = k := by simpa [ownFault] using h
    simp only [exec, execRet, State.pop_empty s.advance hsp]
  case call nnn =>
    obtain ⟨hsp, rfl⟩ : s.sp.val = 16 ∧ FaultKind.stackOverflow = k := by simpa [ownFault] using h
    simp only [exec, execCall, State.push_full s.advance _ hsp]
  case drw x y n =>
    obtain ⟨hspan, rfl⟩ : (0 < n.toNat ∧ 4095 < s.i.toNat + n.toNat - 1) ∧ FaultKind.memoryOutOfBounds = k := by
      simpa only [ownFault, Option.ite_none_right_eq_some, Option.some.injEq] using h
    simp only [exec, execDrw]
    rw [State.readBytes_eq, if_neg (by omega)]
  case ldBcd x =>
    obtain ⟨hspan, rfl⟩ : 4095 < s.i.toNat + 2 ∧ FaultKind.memoryOutOfBounds = k := by simpa [ownFault] using h
    simp only [exec, execLdBcd]
    rw [State.writeBytes_eq, if_neg (by simp only [bcdDigits, List.length_cons, List.length_nil]; omega)]
  case storeRegs x =>
    obtain ⟨hspan, rfl⟩ : 4095 < s.i.toNat + x.val ∧ FaultKind.memoryOutOfBounds = k := by simpa [ownFault] using h
    simp only [exec, execStoreRegs]
    rw [State.writeBytes_eq, if_neg (by rw [State.length_firstRegs]; omega)]
  case loadRegs x =>
    obtain ⟨hspan, rfl⟩ : 4095 < s.i.toNat + x.val ∧ FaultKind.memoryOutOfBounds = k := by simpa [ownFault] using h
    simp only [exec, execLoadRegs]
    rw [State.readBytes_eq, if_neg (by omega)]
  case skp x | sknp x =>
    obtain ⟨hkey, rfl⟩ : 15 < (s.reg x).toNat ∧ FaultKind.keyIndexOutOfRange = k := by simpa [ownFault] using h
    simp only [exec, execSkp, execSknp, (State.keyIndex_none s x).mpr hkey]
  all_goals cases h

theorem exec_ret_live (h : 0 < s.sp.val) :
    exec .ret s = .next { s with pc := s.stack[s.sp.val - 1], sp := ⟨s.sp.val - 1, by omega⟩ } := by
  simp only [exec, execRet, State.pop_live s.advance h]
  rfl

theorem exec_call_room (nnn : Imm12) (h : s.sp.val < 16) :
    exec (.call nnn) s = .next { s with
      pc := zextImm nnn, stack := s.stack.set s.sp.val (s.pc + 2), sp := ⟨s.sp.val + 1, by omega⟩ } := by
  simp only [exec, execCall, State.push_room s.advance _ h]
  rfl

/-- The framebuffer with the sprite of `n` bytes at `I` drawn at (`V[x]`, `V[y]`), and the collision (R152). -/
def State.drawSprite (x y : Reg) (n : Nibble) : Framebuffer × Bool :=
  drawRows (s.reg x).toNat (s.reg y).toNat 0 (s.mem.readMany s.i.toNat n.toNat) (s.fb, false)

theorem exec_drw_inBounds (x y : Reg) {n : Nibble} (h : n.toNat = 0 ∨ s.i.toNat + n.toNat ≤ 4096) :
    exec (.drw x y n) s = .next ((s.advance.setFb (s.drawSprite x y n).1).setFlag (s.drawSprite x y n).2) := by
  simp only [exec, execDrw]
  rw [State.readBytes_eq, if_pos h]
  rfl

theorem exec_ldBcd_inBounds (x : Reg) (h : s.i.toNat + 2 ≤ 4095) :
    exec (.ldBcd x) s = .next (s.advance.setMem (s.mem.writeMany s.i.toNat (bcdDigits (s.reg x)))) := by
  simp only [exec, execLdBcd]
  rw [State.writeBytes_eq, if_pos (.inr (by simp only [bcdDigits, List.length_cons, List.length_nil]; omega))]
  rfl

theorem exec_storeRegs_inBounds {x : Reg} (h : s.i.toNat + x.val ≤ 4095) :
    exec (.storeRegs x) s = .next (s.advance.setMem (s.mem.writeMany s.i.toNat (s.firstRegs x))) := by
  simp only [exec, execStoreRegs]
  rw [State.writeBytes_eq, if_pos (.inr (by rw [State.length_firstRegs]; omega))]
  rfl

theorem exec_loadRegs_inBounds {x : Reg} (h : s.i.toNat + x.val ≤ 4095) :
    exec (.loadRegs x) s = .next (s.advance.fillRegs (s.mem.readMany s.i.toNat (x.val + 1))) := by
  simp only [exec, execLoadRegs]
  rw [State.readBytes_eq, if_pos (.inr (by omega))]

/-- `pc` after the instruction or after the one behind it (R103). -/
def State.skip (c : Bool) : State := s.setPc (if c then s.pc + 4 else s.pc + 2)

theorem State.advance_skipIf (c : Bool) : s.advance.skipIf c = s.skip c := by
  rw [State.skipIf_eq, State.skip]
  cases c <;> simp [State.advance, State.setPc, BitVec.add_assoc]

theorem State.skip_pc (c : Bool) : (s.skip c).pc = s.pc + 2 ∨ (s.skip c).pc = s.pc + 4 := by
  cases c
  · exact .inl rfl
  · exact .inr rfl

theorem exec_seImm (x : Reg) (kk : Byte) : exec (.seImm x kk) s = .next (s.skip (s.reg x == kk)) :=
  congrArg Host.Outcome.next (s.advance_skipIf _)

theorem exec_sneImm (x : Reg) (kk : Byte) : exec (.sneImm x kk) s = .next (s.skip (s.reg x != kk)) :=
  congrArg Host.Outcome.next (s.advance_skipIf _)

theorem exec_seReg (x y : Reg) : exec (.seReg x y) s = .next (s.skip (s.reg x == s.reg y)) :=
  congrArg Host.Outcome.next (s.advance_skipIf _)

theorem exec_sneReg (x y : Reg) : exec (.sneReg x y) s = .next (s.skip (s.reg x != s.reg y)) :=
  congrArg Host.Outcome.next (s.advance_skipIf _)

theorem exec_skp_of_index {x : Reg} {k : Fin 16} (h : (s.reg x).toNat = k.val) :
    exec (.skp x) s = .next (s.skip s.key[k.val]) := by
  simp only [exec, execSkp, (State.keyIndex_some s x k).mpr h, State.advance_skipIf]

theorem exec_sknp_of_index {x : Reg} {k : Fin 16} (h : (s.reg x).toNat = k.val) :
    exec (.sknp x) s = .next (s.skip !s.key[k.val]) := by
  simp only [exec, execSknp, (State.keyIndex_some s x k).mpr h, State.advance_skipIf]

theorem exec_ldKey_pressed (x : Reg) {k : Fin 16} (h : s.firstKey = some k) :
    exec (.ldKey x) s = .next (s.advance.setReg x (BitVec.ofNat 8 k.val)) := by
  simp only [exec, execLdKey, h]

/-- With no key down the whole state stays (R165). -/
theorem exec_ldKey_idle (x : Reg) (h : s.firstKey = none) : exec (.ldKey x) s = .next s := by
  simp only [exec, execLdKey, h]
  simp [State.advance, State.setPc]

/-! ### What a completed instruction does -/

/-- The parts besides the general registers an instruction writes when it completes (R23 to R29, R50; `draws`: log 1). -/
def writtenParts : Instr → List Part
  | .cls | .drw _ _ _ => [.pc, .framebuffer]
  | .ret => [.pc, .sp]
  | .call _ => [.pc, .stack, .sp]
  | .ldI _ | .addI _ | .ldFont _ => [.pc, .index]
  | .rnd _ _ => [.pc, .draws]
  | .ldDt _ => [.pc, .delayTimer]
  | .ldSt _ => [.pc, .soundTimer]
  | .ldBcd _ | .storeRegs _ => [.pc, .memory]
  | .jp _ | .jpV0 _ | .seImm _ _ | .sneImm _ _ | .seReg _ _ | .sneReg _ _ | .skp _ | .sknp _ => [.pc]
  | .ldImm _ _ | .addImm _ _ | .ldReg _ _ | .orReg _ _ | .andReg _ _ | .xorReg _ _ | .addReg _ _ | .subReg _ _ => [.pc]
  | .shr _ _ | .subnReg _ _ | .shl _ _ | .ldFromDt _ | .ldKey _ | .loadRegs _ => [.pc]

/-- The instruction is one of the six skips (R103 to R106, R163, R164). -/
def IsSkip (i : Instr) : Prop :=
  (∃ x kk, i = .seImm x kk ∨ i = .sneImm x kk) ∨ (∃ x y, i = .seReg x y ∨ i = .sneReg x y) ∨
    ∃ x, i = .skp x ∨ i = .sknp x

/-- The instruction is one that may leave `pc` elsewhere than at the next instruction, and what it then does with it:
a jump, call or return, the key wait that stays, a skip taken (R100 to R107, R163 to R165). -/
def Redirects (i : Instr) (s t : State) : Prop :=
  i = .ret ∨ (∃ nnn, i = .jp nnn ∨ i = .call nnn ∨ i = .jpV0 nnn) ∨ (∃ x, i = .ldKey x ∧ t.pc = s.pc) ∨
    t.pc = s.pc + 4 ∧ IsSkip i

/-- What holds of an instruction that has led from `s` to `t` without a fault. -/
structure Effect (i : Instr) (s t : State) : Prop where
  frame : OnlyChanges (writtenParts i) (writtenRegs i) s t
  pc : t.pc = s.pc + 2 ∨ Redirects i s t
  /-- It does not read the latch. -/
  relatch : ∀ f, exec i { s with fault := f } = .next { t with fault := f }

theorem Effect.of_skip {c : Bool} (hi : IsSkip i) (hregs : writtenRegs i = []) (hparts : writtenParts i = [.pc])
    (hexec : ∀ f, exec i { s with fault := f } = .next (State.skip { s with fault := f } c)) :
    Effect i s (s.skip c) where
  frame := by rw [hparts, hregs]; exact s.setPc_frame _
  pc := (s.skip_pc c).imp_right fun h => .inr (.inr (.inr ⟨h, hi⟩))
  relatch := hexec

variable {s}

/-- An instruction whose own check does not fail completes. -/
theorem exec_effect (hok : ownFault s i = none) : ∃ t, exec i s = .next t ∧ Effect i s t := by
  cases i
  case cls => exact ⟨_, rfl, s.advance_frame.trans (State.setFb_frame _ _), .inl rfl, fun _ => rfl⟩
  case ldImm | addImm | ldReg | orReg | andReg | xorReg | ldFromDt =>
    exact ⟨_, rfl, s.advance_frame.trans (State.setReg_frame _ _ _), .inl rfl, fun _ => rfl⟩
  case addReg | subReg | subnReg =>
    exact ⟨_, rfl, s.advance_frame.trans (State.setResultThenFlag_frame _ _ _ _), .inl rfl, fun _ => rfl⟩
  case shr | shl =>
    exact ⟨_, rfl, s.advance_frame.trans (State.setFlagThenShift_frame _ _ _ _), .inl rfl, fun _ => rfl⟩
  case rnd =>
    exact ⟨_, rfl, (s.advance_frame.trans (State.countDraw_frame _)).trans (State.setReg_frame _ _ _), .inl rfl,
      fun _ => rfl⟩
  case ldI | addI | ldFont =>
    exact ⟨_, rfl, s.advance_frame.trans (State.setI_frame _ _), .inl rfl, fun _ => rfl⟩
  case ldDt => exact ⟨_, rfl, s.advance_frame.trans (State.setDt_frame _ _), .inl rfl, fun _ => rfl⟩
  case ldSt => exact ⟨_, rfl, s.advance_frame.trans (State.setSt_frame _ _), .inl rfl, fun _ => rfl⟩
  case jp nnn => exact ⟨_, rfl, s.setPc_frame _, .inr (.inr (.inl ⟨nnn, .inl rfl⟩)), fun _ => rfl⟩
  case jpV0 nnn => exact ⟨_, rfl, s.setPc_frame _, .inr (.inr (.inl ⟨nnn, .inr (.inr rfl)⟩)), fun _ => rfl⟩
  case ret =>
    have hlive : 0 < s.sp.val := by simp [ownFault] at hok; omega
    refine ⟨_, exec_ret_live s hlive, ⟨fun p hp => ?_, fun _ _ => rfl⟩, .inr (.inl rfl),
      fun f => exec_ret_live { s with fault := f } hlive⟩
    cases p <;> simp_all [writtenParts, Part.same, State.memRead]
  case call nnn =>
    have hroom : s.sp.val < 16 := by simp [ownFault] at hok; omega
    refine ⟨_, exec_call_room s nnn hroom, ⟨fun p hp => ?_, fun _ _ => rfl⟩,
      .inr (.inr (.inl ⟨nnn, .inr (.inl rfl)⟩)), fun f => exec_call_room { s with fault := f } nnn hroom⟩
    cases p <;> simp_all [writtenParts, Part.same, State.memRead]
  case drw x y n =>
    have hspan : n.toNat = 0 ∨ s.i.toNat + n.toNat ≤ 4096 := by simp [ownFault] at hok; omega
    exact ⟨_, exec_drw_inBounds s x y hspan,
      (s.advance_frame.trans (State.setFb_frame _ _)).trans (State.setReg_frame _ vf _), .inl rfl,
      fun f => exec_drw_inBounds _ x y hspan⟩
  case ldBcd x =>
    have hspan : s.i.toNat + 2 ≤ 4095 := by simpa [ownFault] using hok
    exact ⟨_, exec_ldBcd_inBounds s x hspan, s.advance_frame.trans (State.setMem_frame _ _), .inl rfl,
      fun f => exec_ldBcd_inBounds _ x hspan⟩
  case storeRegs x =>
    have hspan : s.i.toNat + x.val ≤ 4095 := by simpa [ownFault] using hok
    exact ⟨_, exec_storeRegs_inBounds s hspan, s.advance_frame.trans (State.setMem_frame _ _), .inl rfl,
      fun f => exec_storeRegs_inBounds _ hspan⟩
  case loadRegs x =>
    have hspan : s.i.toNat + x.val ≤ 4095 := by simpa [ownFault] using hok
    exact ⟨_, exec_loadRegs_inBounds s hspan,
      s.advance_frame.trans (State.fillRegs_frame _ x (Memory.length_readMany _ _ _)), .inl rfl,
      fun f => exec_loadRegs_inBounds _ hspan⟩
  case seImm x kk =>
    exact ⟨_, exec_seImm s x kk, .of_skip s (.inl ⟨x, kk, .inl rfl⟩) rfl rfl fun f => exec_seImm _ x kk⟩
  case sneImm x kk =>
    exact ⟨_, exec_sneImm s x kk, .of_skip s (.inl ⟨x, kk, .inr rfl⟩) rfl rfl fun f => exec_sneImm _ x kk⟩
  case seReg x y =>
    exact ⟨_, exec_seReg s x y, .of_skip s (.inr (.inl ⟨x, y, .inl rfl⟩)) rfl rfl fun f => exec_seReg _ x y⟩
  case sneReg x y =>
    exact ⟨_, exec_sneReg s x y, .of_skip s (.inr (.inl ⟨x, y, .inr rfl⟩)) rfl rfl fun f => exec_sneReg _ x y⟩
  case skp x =>
    have hkey : (s.reg x).toNat < 16 := by simp [ownFault] at hok; omega
    exact ⟨_, exec_skp_of_index s (k := ⟨_, hkey⟩) rfl,
      .of_skip s (.inr (.inr ⟨x, .inl rfl⟩)) rfl rfl
        fun f => exec_skp_of_index { s with fault := f } (k := ⟨_, hkey⟩) rfl⟩
  case sknp x =>
    have hkey : (s.reg x).toNat < 16 := by simp [ownFault] at hok; omega
    exact ⟨_, exec_sknp_of_index s (k := ⟨_, hkey⟩) rfl,
      .of_skip s (.inr (.inr ⟨x, .inr rfl⟩)) rfl rfl
        fun f => exec_sknp_of_index { s with fault := f } (k := ⟨_, hkey⟩) rfl⟩
  case ldKey x =>
    cases hkey : s.firstKey with
    | some k =>
      exact ⟨_, exec_ldKey_pressed s x hkey, s.advance_frame.trans (State.setReg_frame _ _ _), .inl rfl,
        fun f => exec_ldKey_pressed _ x hkey⟩
    | none =>
      exact ⟨_, exec_ldKey_idle s x hkey, (OnlyChanges.refl s).mono (by simp) (by simp),
        .inr (.inr (.inr (.inl ⟨x, rfl, rfl⟩))), fun f => exec_ldKey_idle _ x hkey⟩

theorem effect_of_exec (hok : ownFault s i = none) (h : exec i s = .next t) : Effect i s t := by
  obtain ⟨t', h', heffect⟩ := exec_effect hok
  cases h.symm.trans h'
  exact heffect

theorem eq_takeFault_of_exec {k : FaultKind} (hfails : ownFault s i = some k) (h : exec i s = .next t) :
    t = s.takeFault k (some (encode i)) := by
  rw [exec_of_ownFault s hfails] at h
  cases h
  rfl

/-- Whether an instruction completes or faults, it writes its own parts and the latch at most. -/
theorem exec_frame (h : exec i s = .next t) : OnlyChanges (.latch :: writtenParts i) (writtenRegs i) s t := by
  cases hcheck : ownFault s i with
  | none => exact (effect_of_exec hcheck h).frame.mono (List.subset_cons_self _ _) (List.Subset.refl _)
  | some k =>
    rw [eq_takeFault_of_exec hcheck h]
    exact (s.takeFault_frame k _).mono (by simp) (List.nil_subset _)

/-- A part other than the latch that has changed is one of those the instruction writes. -/
theorem mem_writtenParts_of_changed {p : Part} (h : exec i s = .next t) (hp : p ≠ .latch) (hchanged : ¬ p.same s t) :
    p ∈ writtenParts i := by
  by_contra hmem
  exact hchanged ((exec_frame h).1 p (List.not_mem_cons_of_ne_of_not_mem hp hmem))

theorem mem_writtenRegs_of_changed {r : Reg} (h : exec i s = .next t) (hchanged : t.reg r ≠ s.reg r) :
    r ∈ writtenRegs i := by
  by_contra hmem
  exact hchanged ((exec_frame h).2 r hmem)

theorem latch_not_mem_writtenParts (i : Instr) : .latch ∉ writtenParts i := by
  cases i <;> simp [writtenParts]

theorem Effect.latch (h : Effect i s t) : t.fault = s.fault := h.frame.1 .latch (latch_not_mem_writtenParts i)

/-! ### The instructions that write a part -/

theorem keypad_not_mem_writtenParts (i : Instr) : .keypad ∉ writtenParts i := by
  cases i <;> simp [writtenParts]

theorem stack_mem_writtenParts (h : .stack ∈ writtenParts i) : ∃ nnn, i = .call nnn := by
  cases i <;> simp_all [writtenParts]

theorem sp_mem_writtenParts (h : .sp ∈ writtenParts i) : i = .ret ∨ ∃ nnn, i = .call nnn := by
  cases i <;> simp_all [writtenParts]

theorem index_mem_writtenParts (h : .index ∈ writtenParts i) :
    (∃ nnn, i = .ldI nnn) ∨ ∃ x, i = .addI x ∨ i = .ldFont x := by
  cases i <;> simp_all [writtenParts]

theorem delayTimer_mem_writtenParts (h : .delayTimer ∈ writtenParts i) : ∃ x, i = .ldDt x := by
  cases i <;> simp_all [writtenParts]

theorem soundTimer_mem_writtenParts (h : .soundTimer ∈ writtenParts i) : ∃ x, i = .ldSt x := by
  cases i <;> simp_all [writtenParts]

theorem framebuffer_mem_writtenParts (h : .framebuffer ∈ writtenParts i) : i = .cls ∨ ∃ x y n, i = .drw x y n := by
  cases i <;> simp_all [writtenParts]

theorem memory_mem_writtenParts (h : .memory ∈ writtenParts i) : ∃ x, i = .ldBcd x ∨ i = .storeRegs x := by
  cases i <;> simp_all [writtenParts]

theorem draws_mem_writtenParts (h : .draws ∈ writtenParts i) : ∃ x kk, i = .rnd x kk := by
  cases i <;> simp_all [writtenParts]

/-- Settles O11: `exec_frame` for the parts and registers, `Effect` for `pc` and the latch of a completed instruction. -/
theorem instructionsWriteOnlyTheirParts : Obligations.InstructionsWriteOnlyTheirParts := by
  intro i s t h
  have written {p : Part} (hp : p ≠ .latch) (hchanged : ¬ p.same s t) := mem_writtenParts_of_changed h hp hchanged
  refine ⟨fun r => mem_writtenRegs_of_changed h, fun hok => ?_, fun k hfails => eq_takeFault_of_exec hfails h, ?_,
    fun hne => stack_mem_writtenParts (written nofun hne), fun hne => sp_mem_writtenParts (written nofun hne),
    fun hne => index_mem_writtenParts (written nofun hne), fun hne => delayTimer_mem_writtenParts (written nofun hne),
    fun hne => soundTimer_mem_writtenParts (written nofun hne),
    fun hne => framebuffer_mem_writtenParts (written nofun hne),
    fun ⟨a, hne⟩ => memory_mem_writtenParts (written nofun fun hsame => hne (hsame a)),
    fun hne => draws_mem_writtenParts (written nofun hne)⟩
  · have heffect := effect_of_exec hok h
    exact ⟨heffect.latch, heffect.pc.resolve_left⟩
  · by_contra hne
    exact keypad_not_mem_writtenParts i (written nofun hne)

/-! ### VF -/

/-- The instructions that write VF: the flag-setting forms, and those with VF as their destination (R22). -/
theorem vf_mem_writtenRegs (h : vf ∈ writtenRegs i) :
    (∃ x y, i = .addReg x y ∨ i = .subReg x y ∨ i = .subnReg x y ∨ i = .shr x y ∨ i = .shl x y) ∨
      (∃ x y n, i = .drw x y n) ∨
      (∃ kk, i = .ldImm vf kk ∨ i = .addImm vf kk ∨ i = .rnd vf kk) ∨
      (∃ y, i = .ldReg vf y ∨ i = .orReg vf y ∨ i = .andReg vf y ∨ i = .xorReg vf y) ∨
      i = .ldFromDt vf ∨ i = .ldKey vf ∨ i = .loadRegs vf := by
  cases i
  case loadRegs x =>
    have hx : vf ≤ x := by simpa [writtenRegs] using h
    obtain rfl : x = vf := le_antisymm (Fin.le_last x) hx
    simp
  all_goals simp_all [writtenRegs]

/-- Settles O12: a register that changes is one of `writtenRegs`. -/
theorem flagRegisterWrittenOnlyByFlagInstructions : Obligations.FlagRegisterWrittenOnlyByFlagInstructions :=
  fun _ _ _ h hchanged => vf_mem_writtenRegs (mem_writtenRegs_of_changed h hchanged)

/-! ### The next address -/

/-- Settles O13: a completed instruction goes to the next address or is one of those that redirect `pc`. -/
theorem otherInstructionsGoToTheNextAddress : Obligations.OtherInstructionsGoToTheNextAddress := by
  intro i s hok hret hjump himm hreg hkey
  obtain ⟨t, h, heffect⟩ := exec_effect hok
  refine ⟨t, h, heffect.pc.resolve_right ?_⟩
  rintro (hi | ⟨nnn, hi⟩ | ⟨x, hi, -⟩ | ⟨-, ⟨x, kk, hi⟩ | ⟨x, y, hi⟩ | ⟨x, hi⟩⟩)
  · exact hret hi
  · have := hjump nnn; tauto
  · have := hkey x; tauto
  · have := himm x kk; tauto
  · have := hreg x y; tauto
  · have := hkey x; tauto

/-! ### The latch and the events -/

variable {e : Event} {out : List Output}

theorem load_next {image : List Byte} (h : load image s = .next (t, out)) :
    s.fault = none ∧ t = s.setMem (s.mem.writeMany loadAddr image) := by
  unfold load at h
  split at h
  · obtain ⟨hclear, hnext⟩ := whenLive_next h
    cases hnext
    exact ⟨hclear, rfl⟩
  · cases h

theorem setKey_next {index : Nat} {pressed : Bool} (h : setKey index pressed s = .next (t, out)) :
    s.fault = none ∧ t = s.setKeyFlag (Fin.ofNat 16 index) pressed := by
  unfold setKey at h
  split at h
  · obtain ⟨hclear, hnext⟩ := whenLive_next h
    cases hnext
    exact ⟨hclear, rfl⟩
  · cases h

theorem timerTick_next (h : timerTick s = .next (t, out)) :
    s.fault = none ∧ t = (s.setDt (agedTimer s.dt)).setSt (agedTimer s.st) := by
  obtain ⟨hclear, hnext⟩ := whenLive_next h
  cases hnext
  exact ⟨hclear, rfl⟩

theorem tickEvent_next (h : tickEvent s = .next (t, out)) : step s = .next t := by
  unfold tickEvent at h
  split at h
  · cases h; assumption
  · cases h
  · cases h

/-- Only `Reset` and `GetDisplay` go on while the latch is set (R32). -/
theorem reset_or_getDisplay_of_latched (hset : s.fault ≠ none) (h : handle e s = .next (t, out)) :
    e = .reset ∨ e = .getDisplay := by
  cases e with
  | reset => exact .inl rfl
  | load image => exact absurd (load_next h).1 hset
  | setKey index pressed => exact absurd (setKey_next h).1 hset
  | tick => exact absurd (fault_of_step (tickEvent_next h)) hset
  | timerTick => exact absurd (timerTick_next h).1 hset
  | getDisplay => exact .inr rfl

/-- Only `Tick` and `Reset` write the latch (R32). -/
theorem tick_or_reset_or_fault_eq (h : handle e s = .next (t, out)) : e = .tick ∨ e = .reset ∨ t.fault = s.fault := by
  cases e with
  | reset => exact .inr (.inl rfl)
  | load image => obtain ⟨-, rfl⟩ := load_next h; exact .inr (.inr rfl)
  | setKey index pressed => obtain ⟨-, rfl⟩ := setKey_next h; exact .inr (.inr rfl)
  | tick => exact .inl rfl
  | timerTick => obtain ⟨-, rfl⟩ := timerTick_next h; exact .inr (.inr rfl)
  | getDisplay => cases h; exact .inr (.inr rfl)

/-- An event that finds the latch clear and leaves it set is `Tick`. -/
theorem tick_of_sets_latch (h : handle e s = .next (t, out)) (hclear : s.fault = none) (hset : t.fault ≠ none) :
    e = .tick := by
  obtain rfl | rfl | hsame := tick_or_reset_or_fault_eq h
  · rfl
  · cases h; exact absurd rfl hset
  · exact absurd (hsame.trans hclear) hset

/-- An event that finds the latch set and leaves it clear is `Reset`. -/
theorem reset_of_clears_latch (h : handle e s = .next (t, out)) (hset : s.fault ≠ none) (hclear : t.fault = none) :
    e = .reset := by
  obtain rfl | rfl := reset_or_getDisplay_of_latched hset h
  · rfl
  · cases h; exact absurd hclear hset

/-- Settles O9, event by event, and by `Effect` for the instructions. -/
theorem latchedMachineHasOnlyResetAndDisplay : Obligations.LatchedMachineHasOnlyResetAndDisplay := by
  refine ⟨fun s => ⟨resetEvent s, rfl, rfl⟩, fun e s t out h => ⟨tick_of_sets_latch h, reset_of_clears_latch h⟩,
    fun e s hset => ⟨fun ⟨t, out, h⟩ => reset_or_getDisplay_of_latched hset h, ?_⟩, fun i s t f hok h => ?_⟩
  · rintro (rfl | rfl)
    · exact ⟨_, _, rfl⟩
    · exact ⟨_, _, rfl⟩
  · have heffect := effect_of_exec hok h
    exact ⟨heffect.latch, heffect.relatch f⟩

/-! ### Reset -/

theorem resetByte_of_font {a : Nat} (h : a < 80) : (font.map BitVec.toNat)[a]? = some (resetByte a).toNat := by
  have hlen : a < font.length := h
  simp [resetByte, hlen]

theorem resetByte_above_font {a : Nat} (h : 80 ≤ a) : resetByte a = 0 := List.getD_eq_default _ _ h

theorem memRead_resetEvent (s : State) {a : Nat} (h : a ≤ 4095) : (resetEvent s).memRead a = some (resetByte a) :=
  (State.memRead_eq _ a).trans (if_pos h)

/-- Settles O45: memory by the two lemmas on `resetByte`, the other parts by computation. -/
theorem resetPutsEveryPartToItsValue : Obligations.ResetPutsEveryPartToItsValue := by
  intro s
  refine ⟨resetEvent s, rfl, rfl, fun a ha => ?_, fun a hlo hhi => ?_, fun r => ?_, rfl, fun k => ?_, rfl, rfl, rfl,
    fun k => ?_, fun k _ => ?_, rfl⟩
  · exact ⟨_, memRead_resetEvent s (by omega), resetByte_of_font ha⟩
  · rw [memRead_resetEvent s hhi, resetByte_above_font hlo]
  · exact Vector.getElem_replicate _
  · exact Vector.getElem_replicate _
  · exact Vector.getElem_replicate _
  · exact BitVec.getLsbD_zero

/-- Settles O48: the reset state meets the invariant as what the event `Reset` leaves does. -/
theorem resetMeetsTheInvariant : Obligations.ResetMeetsTheInvariant := inv_reset

end Sys2Proof.Machine

/-! Memory (spec/20_memory.md): what the checked accesses answer, the fetch as the big-endian read of two bytes, what
one `Tick` does, from which the canonical form of memory follows, and the fetch after a bulk store. -/

namespace Sys2Proof.Machine

variable {s t : State}

/-! ### The checked accesses (R55, R56) -/

theorem State.memRead_eq_none_iff {a : Nat} : s.memRead a = none ↔ 4095 < a := by
  rw [State.memRead_eq, ite_eq_right_iff]
  simp

theorem State.memWrite_eq_none_iff {a : Nat} {u : Byte} : s.memWrite a u = none ↔ 4095 < a := by
  rw [State.memWrite_eq, ite_eq_right_iff]
  simp

theorem State.memRead_eq_some_iff {a : Nat} {u : Byte} : s.memRead a = some u ↔ a ≤ 4095 ∧ s.mem.read a = u := by
  rw [State.memRead_eq, Option.ite_none_right_eq_some, Option.some.injEq]

theorem State.memRead_setMem_write_same {a : Nat} (h : a ≤ 4095) (u : Byte) :
    (s.setMem (s.mem.write a u)).memRead a = some u := by
  simp [State.memRead_eq_some_iff, h, Memory.read_write]

theorem State.memRead_setMem_write_of_ne {a b : Nat} (h : b ≠ a) (u : Byte) :
    (s.setMem (s.mem.write a u)).memRead b = s.memRead b := by
  simp [State.memRead_eq, Memory.read_write, h]

/-! ### The fetch (R52, R91) -/

theorem wordOfBytes_eq_ofNat (hi lo : Byte) : wordOfBytes hi lo = BitVec.ofNat 16 (hi.toNat * 256 + lo.toNat) := by
  rw [← wordOfBytes_toNat, BitVec.ofNat_toNat, BitVec.setWidth_eq]

theorem State.fetchWord_inBounds (h : s.pc.toNat ≤ 4094) :
    s.fetchWord = some (BitVec.ofNat 16 (wordNumberAt s s.pc.toNat)) := by
  rw [State.fetchWord_eq, if_pos h, wordOfBytes_eq_ofNat, wordNumberAt]

theorem State.fetchWord_outOfBounds (h : 4094 < s.pc.toNat) : s.fetchWord = none := by
  rw [State.fetchWord_eq, if_neg (Nat.not_le.mpr h)]

/-- The fetch is the read of the bytes at `pc` and `pc + 1`, the first one high. -/
theorem State.fetchWord_of_memRead {hi lo : Byte} (hhi : s.memRead s.pc.toNat = some hi)
    (hlo : s.memRead (s.pc.toNat + 1) = some lo) :
    s.fetchWord = some (BitVec.ofNat 16 (hi.toNat * 256 + lo.toNat)) := by
  obtain ⟨-, rfl⟩ := State.memRead_eq_some_iff.mp hhi
  obtain ⟨hpc, rfl⟩ := State.memRead_eq_some_iff.mp hlo
  exact State.fetchWord_inBounds (by omega)

/-- Settles O33: the bounds of both primitives, `Memory.read_write` through the checked read, and the fetch from the two
bytes it reads. -/
theorem memoryPrimitivesReadTheLatestWrite : Obligations.MemoryPrimitivesReadTheLatestWrite := by
  intro s a u
  refine ⟨State.memRead_eq_none_iff, State.memWrite_eq_none_iff, fun ha => ?_,
    fun _ _ hhi hlo => State.fetchWord_of_memRead hhi hlo, fun hnone => ?_⟩
  · exact ⟨s.setMem (s.mem.write a u), by rw [State.memWrite_eq, if_pos ha], State.memRead_setMem_write_same ha u,
      fun _ hb => State.memRead_setMem_write_of_ne hb u, s.setMem_frame _⟩
  · have hpc : 4095 < s.pc.toNat + 1 := State.memRead_eq_none_iff.mp hnone
    exact State.fetchWord_outOfBounds (by omega)

/-! ### What a `Tick` does -/

/-- Settles O6: the fetch reads that word, so `step` comes down to `exec`. -/
theorem tickRunsTheDecodedInstruction : Obligations.TickRunsTheDecodedInstruction := by
  intro s i hclear hpc hdecode
  simp only [step_clear hclear, tickBody, State.fetchWord_inBounds hpc, runWord, hdecode]

/-- A `Tick` takes a fault, and then only the latch is new, or completes an instruction (R95). -/
theorem step_cases (h : step s = .next t) : (∃ k w, t = s.takeFault k w) ∨ Completes s t := by
  rw [step_clear (fault_of_step h), tickBody] at h
  split at h
  · cases h
    exact .inl ⟨_, _, rfl⟩
  · rw [runWord] at h
    split at h
    · exact (exec_cases h).imp_left fun ⟨k, hfault⟩ => ⟨k, _, hfault⟩
    · cases h
      exact .inl ⟨_, _, rfl⟩

/-- Settles O49: a fault leaves memory as it is, and an instruction stores at most one block, in bounds. -/
theorem stepKeepsMemoryCanonical : Obligations.StepKeepsMemoryCanonical := by
  intro s t hwf h
  obtain ⟨k, w, rfl⟩ | hdone := step_cases h
  · exact hwf
  · exact hdone.memory.wf hwf

/-! ### The fetch after a bulk store (R64) -/

/-- Where `LD [I], Vx` has stored `V[k]`, that byte is read (R144). -/
theorem memRead_of_storeRegs {x k : Reg} (hspan : s.i.toNat + x.val ≤ 4095) (hk : k ≤ x)
    (h : exec (.storeRegs x) s = .next t) : t.memRead (s.i.toNat + k.val) = some (s.reg k) := by
  rw [exec_storeRegs_inBounds s hspan] at h
  cases h
  have hkx : k.val ≤ x.val := hk
  rw [State.memRead_eq_some_iff, State.setMem_mem, Memory.read_writeMany, State.length_firstRegs,
    if_pos ⟨Nat.le_add_right _ _, by omega⟩, Nat.add_sub_cancel_left]
  exact ⟨by omega, s.getD_firstRegs x k hk⟩

/-- Settles O34: both bytes at the next `pc` are among the stored ones. -/
theorem fetchSeesABulkStoreAtOnce : Obligations.FetchSeesABulkStoreAtOnce := by
  intro x k s hspan h hpc
  have hexec := exec_storeRegs_inBounds s hspan
  refine ⟨_, hexec, State.fetchWord_of_memRead ?_ ?_⟩
  · rw [State.setMem_pc, State.advance_pc, hpc]
    exact memRead_of_storeRegs hspan (Nat.le_of_succ_le h) hexec
  · rw [State.setMem_pc, State.advance_pc, hpc, Nat.add_assoc]
    exact memRead_of_storeRegs (k := ⟨k.val + 1, by omega⟩) hspan h hexec

end Sys2Proof.Machine

/-! The encoding (spec/30_encoding.md): encoder and decoder are inverse to each other, the decoder is the opcode map, and
the words it does not decode are those R76 lists. -/

namespace Sys2Proof.Laws.OpcodeRow

/-- The law of the row of each constructor, gathered. -/
theorem statement_of_instr (i : Instr) : Statement i := by
  cases i
  exacts [cls, ret, jp _, call _, seImm .., sneImm .., seReg .., ldImm .., addImm .., ldReg .., orReg .., andReg ..,
    xorReg .., addReg .., subReg .., shr .., subnReg .., shl .., sneReg .., ldI _, jpV0 _, rnd .., drw .., skp _, sknp _,
    ldFromDt _, ldKey _, ldDt _, ldSt _, addI _, ldFont _, ldBcd _, storeRegs _, loadRegs _]

end Sys2Proof.Laws.OpcodeRow

namespace Sys2Proof

/-! ### The round trip (R71, R74, R75) -/

/-- A packed word gives its fields back, so the decoder takes the arm of the opcode nibble, and within a family the arm of
the trailing nibbles. -/
theorem decode_encode (i : Instr) : decode (encode i) = .instr i := by
  cases i
  case cls | ret => rfl
  case jp | call | ldI | jpV0 | seImm | sneImm | ldImm | addImm | rnd | seReg | sneReg | drw => simp [encode, decode]
  case ldReg | orReg | andReg | xorReg | addReg | subReg | shr | subnReg | shl => simp [encode, decode, decode8]
  case skp | sknp => simp [encode, decode, decodeE]
  case ldFromDt | ldKey | ldDt | ldSt | addI | ldFont | ldBcd | storeRegs | loadRegs => simp [encode, decode, decodeF]

/-- Settles O1, by the constructors of the instruction, grouped as the decoder's families. -/
theorem decodeOfEncodedInstruction : Obligations.DecodeOfEncodedInstruction :=
  decode_encode

/-- Settles O2, arm by arm of the decoder: each packs the fields it took back into the word. -/
theorem encodeOfDecodedWord : Obligations.EncodeOfDecodedWord :=
  fun _ _ h => encode_eq_of_decode h

/-! ### A field under a mask that keeps it -/

theorem nib1_eq_of_and {w m p : Word} (h : w &&& m = p) (hm : nib1 m = 0xF#4) : nib1 w = nib1 p := by
  unfold nib1 at *
  rw [← h, BitVec.extractLsb'_and, hm]
  exact BitVec.and_allOnes.symm

theorem nib4_eq_of_and {w m p : Word} (h : w &&& m = p) (hm : nib4 m = 0xF#4) : nib4 w = nib4 p := by
  unfold nib4 at *
  rw [← h, BitVec.extractLsb'_and, hm]
  exact BitVec.and_allOnes.symm

theorem immKk_eq_of_and {w m p : Word} (h : w &&& m = p) (hm : immKk m = 0xFF#8) : immKk w = immKk p := by
  unfold immKk at *
  rw [← h, BitVec.extractLsb'_and, hm]
  exact BitVec.and_allOnes.symm

/-! ### The decoder is the opcode map (R74, R75) -/

theorem Instr.nib1_row_mask (i : Instr) : nib1 i.row.mask = 0xF#4 := by
  cases i <;> simp only [Instr.row] <;> rfl

/-- The mask keeps exactly the fields the decoder looks at, so the word takes the arm of the row's pattern. The groups are
the masks: the whole word, `n1` alone, `n1` and `n4`, `n1` and `kk`. -/
theorem decode_row_of_and {w : Word} (i : Instr) (h : w &&& i.row.mask = i.row.pattern) :
    ∃ j, decode w = .instr j ∧ j.row = i.row := by
  have h1 : nib1 w = nib1 i.row.pattern := nib1_eq_of_and h i.nib1_row_mask
  unfold decode
  rw [h1]
  cases i <;> simp only [Instr.row] at h ⊢
  case cls | ret =>
    obtain rfl := BitVec.and_allOnes.symm.trans h
    exact ⟨_, rfl, rfl⟩
  case jp | call | ldI | jpV0 | seImm | sneImm | ldImm | addImm | rnd | drw => exact ⟨_, rfl, rfl⟩
  case seReg | sneReg | ldReg | orReg | andReg | xorReg | addReg | subReg | shr | subnReg | shl =>
    rw [nib4_eq_of_and h rfl]
    exact ⟨_, rfl, rfl⟩
  case skp | sknp | ldFromDt | ldKey | ldDt | ldSt | addI | ldFont | ldBcd | storeRegs | loadRegs =>
    rw [immKk_eq_of_and h rfl]
    exact ⟨_, rfl, rfl⟩

/-- The row of the opcode map a verdict of the decoder names. -/
def Decoded.row? : Decoded → Option OpcodeRow
  | .instr i => some i.row
  | .illegal _ => none

theorem Decoded.row?_eq_some_iff {d : Decoded} {r : OpcodeRow} :
    d.row? = some r ↔ ∃ i, d = .instr i ∧ i.row = r := by
  cases d <;> simp [Decoded.row?]

/-- Each pattern is itself a word of its row. -/
theorem row?_decode_pattern : ∀ r ∈ opcodeMap, (decode r.pattern).row? = some r := by decide

theorem exists_row_eq_of_mem {r : OpcodeRow} (hr : r ∈ opcodeMap) : ∃ i : Instr, i.row = r := by
  obtain ⟨i, -, hi⟩ := Decoded.row?_eq_some_iff.mp (row?_decode_pattern r hr)
  exact ⟨i, hi⟩

/-- Settles O3: the mask keeps what the decoder looks at; conversely the decoded instruction's word, which is `w`, stands
in its own row. -/
theorem decoderIsTheOpcodeMap : Obligations.DecoderIsTheOpcodeMap := by
  intro w r hr
  constructor
  · intro h
    obtain ⟨i, rfl⟩ := exists_row_eq_of_mem hr
    exact decode_row_of_and i h
  · rintro ⟨i, hi, rfl⟩
    rw [← encode_eq_of_decode hi]
    exact (Laws.OpcodeRow.statement_of_instr i).1

/-! ### The fields as numbers (R71) -/

theorem nib1_toNat (w : Word) : (nib1 w).toNat = w.toNat / 4096 := by
  rw [nib1, BitVec.extractLsb'_toNat, Nat.shiftRight_eq_div_pow]
  omega

theorem nib4_toNat (w : Word) : (nib4 w).toNat = w.toNat % 16 := by
  rw [nib4, BitVec.extractLsb'_toNat, Nat.shiftRight_zero]

theorem immKk_toNat (w : Word) : (immKk w).toNat = w.toNat % 256 := by
  rw [immKk, BitVec.extractLsb'_toNat, Nat.shiftRight_zero]

/-! ### The undecodable words, family by family (R76) -/

theorem decode0_illegal_iff (w : Word) :
    (∃ e, decode0 w = .illegal e) ↔ w.toNat ≠ 0x00E0 ∧ w.toNat ≠ 0x00EE := by
  unfold decode0
  split
  · subst w; simp
  · split
    · subst w; simp
    · simp_all [BitVec.toNat_eq]

theorem decode8_illegal_iff (x y : Reg) (n : Nibble) :
    (∃ e, decode8 x y n = .illegal e) ↔ n.toNat ∈ [8, 9, 0xA, 0xB, 0xC, 0xD, 0xF] := by
  unfold decode8
  split
  case h_10 =>
    simp only [imp_false] at *
    simp only [Decoded.illegal.injEq, exists_eq', true_iff, List.mem_cons, List.not_mem_nil, or_false]
    bv_omega
  all_goals simp

theorem decodeE_illegal_iff (x : Reg) (kk : Byte) :
    (∃ e, decodeE x kk = .illegal e) ↔ kk.toNat ∉ [0x9E, 0xA1] := by
  unfold decodeE
  split
  case h_3 => simp_all [BitVec.toNat_eq]
  all_goals simp

theorem decodeF_illegal_iff (x : Reg) (kk : Byte) :
    (∃ e, decodeF x kk = .illegal e) ↔ kk.toNat ∉ [0x07, 0x0A, 0x15, 0x18, 0x1E, 0x29, 0x33, 0x55, 0x65] := by
  unfold decodeF
  split
  case h_10 => simp_all [BitVec.toNat_eq]
  all_goals simp

/-- The undecodable words by number: only the six families in which `n1` does not settle the row have any. -/
theorem decode_illegal_iff (w : Word) : (∃ e, decode w = .illegal e) ↔
      (w.toNat / 4096 = 0 ∧ w.toNat ≠ 0x00E0 ∧ w.toNat ≠ 0x00EE) ∨
      ((w.toNat / 4096 = 5 ∨ w.toNat / 4096 = 9) ∧ w.toNat % 16 ≠ 0) ∨
      (w.toNat / 4096 = 8 ∧ w.toNat % 16 ∈ [8, 9, 0xA, 0xB, 0xC, 0xD, 0xF]) ∨
      (w.toNat / 4096 = 0xE ∧ w.toNat % 256 ∉ [0x9E, 0xA1]) ∨
      (w.toNat / 4096 = 0xF ∧ w.toNat % 256 ∉ [0x07, 0x0A, 0x15, 0x18, 0x1E, 0x29, 0x33, 0x55, 0x65]) := by
  rw [← nib1_toNat, ← nib4_toNat, ← immKk_toNat]
  unfold decode
  split
  case h_1 hn => rw [decode0_illegal_iff, hn]; simp
  case h_2 hn | h_3 hn | h_4 hn | h_5 hn | h_7 hn | h_8 hn | h_11 hn | h_12 hn | h_13 hn | h_14 hn => rw [hn]; simp
  case h_6 hn | h_10 hn => rw [hn]; split <;> simp_all [BitVec.toNat_eq]
  case h_9 hn => rw [decode8_illegal_iff, hn]; simp
  case h_15 hn => rw [decodeE_illegal_iff, hn]; simp
  case h_16 =>
    have hn : nib1 w = 0xF#4 := by
      simp only [imp_false] at *
      bv_omega
    rw [decodeF_illegal_iff, hn]; simp

end Sys2Proof

namespace Sys2Proof.Machine

/-- A `Tick` on an undecodable word (R76, R93). -/
theorem step_of_decode_illegal {s : State} {w : Word} {e : Undecodable} (hclear : s.fault = none)
    (hfetch : s.fetchWord = some w) (he : decode w = .illegal e) :
    step s = .next (s.takeFault .unimplementedOpcode (some w)) := by
  simp only [step_clear hclear, tickBody, hfetch, runWord, he]

/-- Settles O4: the families of undecodable words, and what a `Tick` does with one. -/
theorem undecodableWordsAreExactlyTheListed : Obligations.UndecodableWordsAreExactlyTheListed :=
  ⟨decode_illegal_iff, fun _ _ _ hclear hfetch he => step_of_decode_illegal hclear hfetch he⟩

/-- Settles O5: the decoder run on each of the fixed words. -/
theorem sampleWordsDecode : Obligations.SampleWordsDecode := by
  unfold Obligations.SampleWordsDecode
  decide

end Sys2Proof.Machine

/-! The engine (spec/40_engine.md): the fetch at the end of memory, the one outcome of a `Tick` by the table of faults,
and the random source, which `RND` alone reads. -/

namespace Sys2Proof.Machine

variable {s t : State} {i : Instr}

/-! ### The fetch (R91) -/

theorem step_of_fetch_outOfBounds (hclear : s.fault = none) (hpc : 4095 ≤ s.pc.toNat) :
    step s = .next (s.takeFault .memoryOutOfBounds none) := by
  simp only [step_clear hclear, tickBody, State.fetchWord_outOfBounds hpc]

/-- Settles O7: the number of the big-endian word, and the fault of a fetch that does not fit. -/
theorem fetchReadsTheBigEndianWordOrFaults : Obligations.FetchReadsTheBigEndianWordOrFaults := by
  refine ⟨fun s hpc => ?_, fun s hclear hpc => step_of_fetch_outOfBounds hclear hpc⟩
  exact ⟨_, (State.fetchWord_eq s).trans (if_pos hpc), wordOfBytes_toNat _ _⟩

/-! ### The table of faults (R171, R174) -/

theorem tickFault_of_fetch_outOfBounds (hpc : 4095 ≤ s.pc.toNat) :
    tickFault s = some ⟨.memoryOutOfBounds, s.pc, none⟩ := if_pos hpc

theorem tickFault_of_decode_illegal {w : Word} {e : Undecodable} (hfetch : s.fetchWord = some w)
    (he : decode w = .illegal e) : tickFault s = some ⟨.unimplementedOpcode, s.pc, some w⟩ := by
  have hpc := pc_le_of_fetchWord hfetch
  obtain rfl := Option.some.inj ((State.fetchWord_inBounds hpc).symm.trans hfetch)
  rw [tickFault, if_neg (by omega)]
  simp only [he]

theorem tickFault_of_decode_instr {w : Word} (hfetch : s.fetchWord = some w) (hi : decode w = .instr i) :
    tickFault s = (ownFault s i).map fun k => ⟨k, s.pc, some w⟩ := by
  have hpc := pc_le_of_fetchWord hfetch
  obtain rfl := Option.some.inj ((State.fetchWord_inBounds hpc).symm.trans hfetch)
  rw [tickFault, if_neg (by omega)]
  simp only [hi]

theorem step_of_decode_instr {w : Word} (hclear : s.fault = none) (hfetch : s.fetchWord = some w)
    (hi : decode w = .instr i) : step s = exec i s := by
  simp only [step_clear hclear, tickBody, hfetch, runWord, hi]

/-- What a `Tick` on a clear latch does, the stages in the order fetch, decode, own check (R174): it takes the fault of
the table, or there is none and it ends with the latch clear. -/
theorem step_faults_or_completes (hclear : s.fault = none) :
    (∃ r, tickFault s = some r ∧ step s = .next { s with fault := some r }) ∨
      tickFault s = none ∧ ∃ t, step s = .next t ∧ t.fault = none := by
  cases hfetch : s.fetchWord with
  | none =>
    have hpc : 4095 ≤ s.pc.toNat := by
      by_contra hlow
      cases hfetch.symm.trans (State.fetchWord_inBounds (by omega))
    exact .inl ⟨_, tickFault_of_fetch_outOfBounds hpc, step_of_fetch_outOfBounds hclear hpc⟩
  | some w =>
    cases hdecode : decode w with
    | illegal e =>
      exact .inl ⟨_, tickFault_of_decode_illegal hfetch hdecode, step_of_decode_illegal hclear hfetch hdecode⟩
    | instr i =>
      rw [tickFault_of_decode_instr hfetch hdecode, step_of_decode_instr hclear hfetch hdecode]
      cases hcheck : ownFault s i with
      | none =>
        obtain ⟨t, hexec, heffect⟩ := exec_effect hcheck
        exact .inr ⟨rfl, t, hexec, heffect.latch.trans hclear⟩
      | some k =>
        rw [exec_of_ownFault s hcheck, faultIn, encode_eq_of_decode hdecode]
        exact .inl ⟨_, rfl, rfl⟩

/-! ### The `Tick` as the driver sees it (R173) -/

theorem handle_tick_of_step (h : step s = .next t) :
    handle .tick s = .next (t, (t.fault.map Output.faulted).toList) := by
  simp only [handle, tickEvent, h]

theorem finished_of_latched (h : s.fault ≠ none) : s.finished = false := by
  obtain ⟨r, hr⟩ := Option.ne_none_iff_exists'.mp h
  simp [State.finished, hr]

/-- Settles O8: `step_faults_or_completes` for the `Tick`, and the laws of the latch for the other events. -/
theorem tickFaultsExactlyByTheTable : Obligations.TickFaultsExactlyByTheTable := by
  refine ⟨fun s hclear => ?_, fun e s t out hne h => ?_, fun e s t out hset h => reset_or_getDisplay_of_latched hset h⟩
  · obtain ⟨r, htable, hstep⟩ | ⟨htable, t, hstep, hlatch⟩ := step_faults_or_completes hclear
    · rw [htable]
      refine ⟨_, hstep, rfl, handle_tick_of_step hstep, ?_⟩
      rintro _ ⟨⟩
      exact ⟨rfl, finished_of_latched nofun⟩
    · rw [htable]
      refine ⟨t, hstep, hlatch, ?_, nofun⟩
      rw [handle_tick_of_step hstep, hlatch]
      rfl
  · obtain rfl | rfl | hsame := tick_or_reset_or_fault_eq h
    · exact absurd rfl hne
    · cases h; exact .inl rfl
    · exact .inr hsame

/-! ### The random source (R97, R132) -/

/-- The own checks do not look at the number of draws. -/
theorem ownFault_redraw (i : Instr) (s : State) (d : Nat) : ownFault { s with draws := d } i = ownFault s i := by
  cases i <;> rfl

/-- An instruction other than `RND` whose own check does not fail completes alike after any number of draws. -/
theorem exec_redraw_of_no_ownFault (hrnd : ∀ x kk, i ≠ .rnd x kk) (hok : ownFault s i = none) (d : Nat) :
    ∃ t, exec i s = .next t ∧ exec i { s with draws := d } = .next { t with draws := d } := by
  cases i
  case rnd x kk => exact absurd rfl (hrnd x kk)
  case cls | jp | ldImm | addImm | ldReg | orReg | andReg | xorReg | addReg | subReg | shr | subnReg | shl | ldI | jpV0
      | ldFromDt | ldDt | ldSt | addI | ldFont =>
    exact ⟨_, rfl, rfl⟩
  case seImm x kk => exact ⟨_, exec_seImm s x kk, exec_seImm _ x kk⟩
  case sneImm x kk => exact ⟨_, exec_sneImm s x kk, exec_sneImm _ x kk⟩
  case seReg x y => exact ⟨_, exec_seReg s x y, exec_seReg _ x y⟩
  case sneReg x y => exact ⟨_, exec_sneReg s x y, exec_sneReg _ x y⟩
  case ret =>
    have hlive : 0 < s.sp.val := by simp [ownFault] at hok; omega
    exact ⟨_, exec_ret_live s hlive, exec_ret_live { s with draws := d } hlive⟩
  case call nnn =>
    have hroom : s.sp.val < 16 := by simp [ownFault] at hok; omega
    exact ⟨_, exec_call_room s nnn hroom, exec_call_room { s with draws := d } nnn hroom⟩
  case drw x y n =>
    have hspan : n.toNat = 0 ∨ s.i.toNat + n.toNat ≤ 4096 := by simp [ownFault] at hok; omega
    exact ⟨_, exec_drw_inBounds s x y hspan, exec_drw_inBounds _ x y hspan⟩
  case ldBcd x =>
    have hspan : s.i.toNat + 2 ≤ 4095 := by simpa [ownFault] using hok
    exact ⟨_, exec_ldBcd_inBounds s x hspan, exec_ldBcd_inBounds _ x hspan⟩
  case storeRegs x =>
    have hspan : s.i.toNat + x.val ≤ 4095 := by simpa [ownFault] using hok
    exact ⟨_, exec_storeRegs_inBounds s hspan, exec_storeRegs_inBounds _ hspan⟩
  case loadRegs x =>
    have hspan : s.i.toNat + x.val ≤ 4095 := by simpa [ownFault] using hok
    exact ⟨_, exec_loadRegs_inBounds s hspan, exec_loadRegs_inBounds _ hspan⟩
  case skp x =>
    have hkey : (s.reg x).toNat < 16 := by simp [ownFault] at hok; omega
    exact ⟨_, exec_skp_of_index s (k := ⟨_, hkey⟩) rfl, exec_skp_of_index { s with draws := d } (k := ⟨_, hkey⟩) rfl⟩
  case sknp x =>
    have hkey : (s.reg x).toNat < 16 := by simp [ownFault] at hok; omega
    exact ⟨_, exec_sknp_of_index s (k := ⟨_, hkey⟩) rfl, exec_sknp_of_index { s with draws := d } (k := ⟨_, hkey⟩) rfl⟩
  case ldKey x =>
    cases hkey : s.firstKey with
    | some k => exact ⟨_, exec_ldKey_pressed s x hkey, exec_ldKey_pressed _ x hkey⟩
    | none => exact ⟨_, exec_ldKey_idle s x hkey, exec_ldKey_idle _ x hkey⟩

/-- No instruction but `RND` looks at the number of draws: with another number it does the same, fault or not. -/
theorem exec_redraw (hrnd : ∀ x kk, i ≠ .rnd x kk) (s : State) (d : Nat) :
    ∃ t, exec i s = .next t ∧ exec i { s with draws := d } = .next { t with draws := d } := by
  cases hcheck : ownFault s i with
  | none => exact exec_redraw_of_no_ownFault hrnd hcheck d
  | some k => exact ⟨_, exec_of_ownFault s hcheck, exec_of_ownFault _ ((ownFault_redraw i s d).trans hcheck)⟩

/-- Only `RND` draws. -/
theorem draws_eq_of_exec (hrnd : ∀ x kk, i ≠ .rnd x kk) (h : exec i s = .next t) : t.draws = s.draws := by
  by_contra hdrawn
  obtain ⟨x, kk, hi⟩ := draws_mem_writtenParts (mem_writtenParts_of_changed (p := .draws) h nofun hdrawn)
  exact hrnd x kk hi

/-- Settles O10: every instruction has a next state, and all but `RND` the same one after any number of draws. -/
theorem onlyRandomReadsTheDraw : Obligations.OnlyRandomReadsTheDraw := by
  intro i s d hrnd
  obtain ⟨t, h, hredraw⟩ := exec_redraw hrnd s d
  exact ⟨t, h, draws_eq_of_exec hrnd h, hredraw⟩

end Sys2Proof.Machine

/-! Control flow (spec/41_control_flow.md): the number of an instruction's word by its format, then the jumps, the call
and the return, and the comparing skips. The frames come from what is said once of a completed instruction. -/

namespace Sys2Proof.Machine

variable {s t : State} {i : Instr}

/-! ### The number of an instruction's word (R72, R74) -/

theorem encodedAs_of_toNat {n : Nat} (h : (encode i).toNat = n) : EncodedAs i n := by
  subst h
  exact ⟨rfl, by rw [BitVec.ofNat_toNat, BitVec.setWidth_eq, decode_encode]⟩

section Formats

variable (op n : Nibble) {x y : Reg}

theorem encodedAs_of_packNnn {nnn : Imm12} (h : encode i = packNnn op nnn) :
    EncodedAs i (op.toNat * 4096 + nnn.toNat) :=
  encodedAs_of_toNat (by rw [h, toNat_packNnn])

theorem encodedAs_of_packXkk {kk : Byte} (h : encode i = packXkk op x kk) :
    EncodedAs i (op.toNat * 4096 + 256 * x.val + kk.toNat) :=
  encodedAs_of_toNat (by rw [h, toNat_packXkk, Nat.mul_comm x.val])

/-- The trailing nibble stands beside the opcode nibble, as it is fixed in the rows of family 8 (R74). -/
theorem encodedAs_of_packXyn (h : encode i = packXyn op x y n) :
    EncodedAs i (op.toNat * 4096 + n.toNat + 256 * x.val + 16 * y.val) :=
  encodedAs_of_toNat (by rw [h, toNat_packXyn]; omega)

end Formats

/-! ### Jumps (R101, R107) -/

theorem zextImm_eq_of_toNat_eq {nnn : Imm12} {a : Word} (h : nnn.toNat = a.toNat) : zextImm nnn = a :=
  BitVec.eq_of_toNat_eq ((zextImm_toNat nnn).trans h)

/-- The sum of `JP V0` does not wrap: it is at most 255 + 4095 (R107). -/
theorem toNat_zextByte_add_zextImm (u : Byte) (nnn : Imm12) :
    (zextByte u + zextImm nnn).toNat = u.toNat + nnn.toNat := by
  rw [BitVec.toNat_add, zextByte_toNat, zextImm_toNat]
  omega

theorem exec_jp (nnn : Imm12) (s : State) : exec (.jp nnn) s = .next (s.setPc (zextImm nnn)) := rfl

theorem exec_jpV0 (nnn : Imm12) (s : State) :
    exec (.jpV0 nnn) s = .next (s.setPc (zextByte (s.reg 0) + zextImm nnn)) := rfl

/-- Settles O15: the target is `nnn` as a word, 4095 is no place to fetch from, and a jump to where `pc` is changes
nothing. -/
theorem jumpSetsPc : Obligations.JumpSetsPc := by
  intro nnn s
  refine ⟨encodedAs_of_packNnn 0x1 rfl, _, exec_jp nnn s, zextImm_toNat nnn, s.setPc_frame _, fun hlast hclear => ?_,
    fun hself => ?_⟩
  · rw [show zextImm nnn = 4095 from zextImm_eq_of_toNat_eq hlast] at hclear ⊢
    exact step_of_fetch_outOfBounds hclear (Nat.le_refl 4095)
  · rw [zextImm_eq_of_toNat_eq hself.symm]
    rfl

/-- Settles O19: the sum is exact as a word, and above 4094 there is no word to fetch. -/
theorem jumpWithOffsetAddsV0Unmasked : Obligations.JumpWithOffsetAddsV0Unmasked := by
  intro nnn s
  have hsum := toNat_zextByte_add_zextImm (s.reg 0) nnn
  refine ⟨encodedAs_of_packNnn 0xB rfl, _, exec_jpV0 nnn s, hsum, ?_, s.setPc_frame _, fun habove hclear => ?_⟩
  · rw [State.setPc_pc, hsum]
    omega
  · exact step_of_fetch_outOfBounds hclear (habove.trans_eq hsum.symm)

/-! ### Call and return (R100, R102) -/

/-- Settles O14: the popped entry is the one below `sp`, live before the return. -/
theorem returnPopsTheReturnAddress : Obligations.ReturnPopsTheReturnAddress := by
  refine ⟨encodedAs_of_toNat rfl, fun s hlive => ?_, fun s hempty => exec_of_ownFault s (if_pos hempty)⟩
  have hexec := exec_ret_live s hlive
  have hframe := (effect_of_exec (i := .ret) (if_neg hlive.ne') hexec).frame
  have hdepth : s.sp.val - 1 < 16 := by omega
  exact ⟨_, hexec, Nat.sub_add_cancel hlive, Vector.getElem?_eq_getElem hdepth, hframe,
    fun hsane => hsane ⟨s.sp.val - 1, hdepth⟩ (Nat.sub_lt hlive Nat.one_pos),
    fun habove hclear => step_of_fetch_outOfBounds hclear habove⟩

/-- Settles O16: the new entry is at the old `sp`, and the write there leaves the others. -/
theorem callPushesTheAdvancedPc : Obligations.CallPushesTheAdvancedPc := by
  intro nnn s
  refine ⟨encodedAs_of_packNnn 0x2 rfl, fun hroom => ?_, fun hfull => exec_of_ownFault s (if_pos hfull)⟩
  have hexec := exec_call_room s nnn hroom
  have hframe := (effect_of_exec (i := .call nnn) (if_neg hroom.ne) hexec).frame
  exact ⟨_, hexec, Vector.getElem?_set_self hroom, fun k hk => Vector.getElem_set_ne hroom k.isLt hk.symm, rfl,
    zextImm_toNat nnn, hframe⟩

/-- A frame need not list a part that is the same in the end. -/
theorem OnlyChanges.drop_same {p : Part} {ps qs : List Part} {rs : List Reg} (h : OnlyChanges ps rs s t)
    (hsame : p.same s t) (hps : ∀ q ∈ ps, q = p ∨ q ∈ qs) : OnlyChanges qs rs s t := by
  refine ⟨fun q hq => ?_, h.2⟩
  by_cases hmem : q ∈ ps
  · obtain rfl | hmem' := hps q hmem
    · exact hsame
    · exact absurd hmem' hq
  · exact h.1 q hmem

/-- Settles O17: `RET` pops from where `CALL` pushed, so `sp` is back and the popped entry is the pushed one. -/
theorem callThenReturnResumesAfterTheCall : Obligations.CallThenReturnResumesAfterTheCall := by
  intro nnn s hroom
  obtain ⟨-, hpushes, -⟩ := callPushesTheAdvancedPc nnn s
  obtain ⟨t, hcall, hpushed, -, hsp, -, hframe⟩ := hpushes hroom
  obtain ⟨-, hpops, -⟩ := returnPopsTheReturnAddress
  obtain ⟨u, hret, hsp', hpopped, hframe', -⟩ := hpops t (by omega)
  have hback : u.sp = s.sp := Fin.ext (by omega)
  rw [hback] at hpopped
  exact ⟨t, u, hcall, hret, Option.some.inj (hpopped.symm.trans hpushed), hback,
    (hframe.trans hframe').drop_same (p := .sp) hback (by decide)⟩

/-! ### The comparing skips (R103 to R106) -/

/-- A skip's condition, a Boolean of the model, read as the proposition it decides. -/
theorem exists_skip_of_iff {c : Bool} {P : Prop} [Decidable P] (hexec : exec i s = .next (s.skip c))
    (hc : c = true ↔ P) :
    ∃ t, exec i s = .next t ∧ OnlyChanges [.pc] [] s t ∧ t.pc = if P then s.pc + 4 else s.pc + 2 :=
  ⟨_, hexec, s.setPc_frame _, if_congr hc rfl rfl⟩

theorem beq_iff_toNat_eq (a b : Byte) : (a == b) = true ↔ a.toNat = b.toNat := by
  rw [beq_iff_eq, BitVec.toNat_inj]

theorem bne_iff_toNat_ne (a b : Byte) : (a != b) = true ↔ a.toNat ≠ b.toNat := by
  rw [bne_iff_ne, Ne, Ne, BitVec.toNat_inj]

/-- Settles O18: each skip by its own comparison of unsigned bytes. -/
theorem skipsCompareAndSkipOneWord : Obligations.SkipsCompareAndSkipOneWord := by
  intro x y kk s
  exact ⟨encodedAs_of_packXkk 0x3 rfl, encodedAs_of_packXkk 0x4 rfl, encodedAs_of_packXyn 0x5 0x0 rfl,
    encodedAs_of_packXyn 0x9 0x0 rfl, exists_skip_of_iff (exec_seImm s x kk) (beq_iff_toNat_eq _ _),
    exists_skip_of_iff (exec_sneImm s x kk) (bne_iff_toNat_ne _ _),
    exists_skip_of_iff (exec_seReg s x y) (beq_iff_toNat_eq _ _),
    exists_skip_of_iff (exec_sneReg s x y) (bne_iff_toNat_ne _ _)⟩

end Sys2Proof.Machine

/-! The register instructions (spec/42_alu.md): their meanings, each flag and result as a number, what the shared writes
leave in the registers, then the statements. The frames are those of the updates a meaning is made of. -/

namespace Sys2Proof.Machine

variable {s : State} {i : Instr}

/-! ### The meanings (R120 to R132) -/

section Meanings

variable (x y : Reg) (kk : Byte) (s : State)

theorem exec_ldImm : exec (.ldImm x kk) s = .next (s.advance.setReg x kk) := rfl

theorem exec_addImm : exec (.addImm x kk) s = .next (s.advance.setReg x (s.reg x + kk)) := rfl

theorem exec_ldReg : exec (.ldReg x y) s = .next (s.advance.setReg x (s.reg y)) := rfl

theorem exec_orReg : exec (.orReg x y) s = .next (s.advance.setReg x (s.reg x ||| s.reg y)) := rfl

theorem exec_andReg : exec (.andReg x y) s = .next (s.advance.setReg x (s.reg x &&& s.reg y)) := rfl

theorem exec_xorReg : exec (.xorReg x y) s = .next (s.advance.setReg x (s.reg x ^^^ s.reg y)) := rfl

theorem exec_addReg : exec (.addReg x y) s =
    .next (s.advance.setResultThenFlag x (s.reg x + s.reg y) (carryOut (s.reg x) (s.reg y))) := rfl

theorem exec_subReg : exec (.subReg x y) s =
    .next (s.advance.setResultThenFlag x (s.reg x - s.reg y) (noBorrow (s.reg x) (s.reg y))) := rfl

theorem exec_subnReg : exec (.subnReg x y) s =
    .next (s.advance.setResultThenFlag x (s.reg y - s.reg x) (noBorrow (s.reg y) (s.reg x))) := rfl

theorem exec_shr : exec (.shr x y) s =
    .next (s.advance.setFlagThenShift x (lowBit (s.reg x)) fun u => u >>> 1) := rfl

theorem exec_shl : exec (.shl x y) s =
    .next (s.advance.setFlagThenShift x (highBit (s.reg x)) fun u => u <<< 1) := rfl

theorem exec_rnd : exec (.rnd x kk) s =
    .next (s.advance.countDraw.setReg x (Config.rand8 s.draws &&& kk)) := rfl

end Meanings

/-! ### Results and flags as numbers -/

section Numbers

variable (a b : Byte)

theorem carryOut_iff : carryOut a b = true ↔ 256 ≤ a.toNat + b.toNat := decide_eq_true_iff

theorem noBorrow_iff : noBorrow a b = true ↔ b.toNat ≤ a.toNat := decide_eq_true_iff

theorem lowBit_iff : lowBit a = true ↔ a.toNat % 2 = 1 := by
  rw [lowBit, BitVec.getLsbD, Nat.testBit_zero, decide_eq_true_iff]

theorem highBit_iff : highBit a = true ↔ 128 ≤ a.toNat := by
  rw [highBit, BitVec.getLsbD, Nat.testBit_eq_decide_div_mod_eq, decide_eq_true_iff]
  omega

/-- A flag, a Boolean of the model, read as the proposition it decides. -/
theorem toNat_flagByte_of_iff {c : Bool} {P : Prop} [Decidable P] (h : c = true ↔ P) :
    (flagByte c).toNat = if P then 1 else 0 :=
  (flagByte_toNat c).trans (if_congr h rfl rfl)

theorem toNat_flagByte_lowBit : (flagByte (lowBit a)).toNat = a.toNat % 2 := by
  rw [toNat_flagByte_of_iff (lowBit_iff a)]
  split <;> omega

theorem toNat_flagByte_highBit : (flagByte (highBit a)).toNat = a.toNat / 128 := by
  rw [toNat_flagByte_of_iff (highBit_iff a)]
  split <;> omega

theorem toNat_byte_sub : (a - b).toNat = (a.toNat + 256 - b.toNat) % 256 := by
  rw [BitVec.toNat_sub]
  omega

theorem toNat_shiftRight_one : (a >>> 1).toNat = a.toNat / 2 := by
  rw [BitVec.toNat_ushiftRight, Nat.shiftRight_one]

theorem toNat_shiftLeft_one : (a <<< 1).toNat = 2 * a.toNat % 256 := by
  rw [BitVec.toNat_shiftLeft, Nat.shiftLeft_eq, Nat.mul_comm]

/-- A flag shifted right is lost (R128 with `x` = VF). -/
theorem flagByte_shiftRight_one (c : Bool) : flagByte c >>> 1 = 0 := by
  cases c <;> rfl

/-- A flag shifted left is 2 or 0 (R130 with `x` = VF). -/
theorem toNat_flagByte_shiftLeft_one (c : Bool) : (flagByte c <<< 1).toNat = if c then 2 else 0 := by
  cases c <;> rfl

end Numbers

/-! ### The registers after the shared writes -/

section Writes

variable (s : State) (x : Reg) (u : Byte) (c : Bool) (f : Byte → Byte)

theorem State.setReg_reg_self : (s.setReg x u).reg x = u := by
  rw [State.setReg_reg, if_pos rfl]

theorem State.setResultThenFlag_reg_vf : (s.setResultThenFlag x u c).reg vf = flagByte c := by
  rw [State.setResultThenFlag_reg, if_pos rfl]

theorem State.setFlagThenShift_reg_vf_self : (s.setFlagThenShift vf c f).reg vf = f (flagByte c) := by
  rw [State.setFlagThenShift_reg, if_pos rfl, if_pos rfl]

variable {x}

theorem State.setResultThenFlag_reg_dest (hx : x ≠ vf) : (s.setResultThenFlag x u c).reg x = u := by
  rw [State.setResultThenFlag_reg, if_neg hx, if_pos rfl]

theorem State.setFlagThenShift_reg_dest (hx : x ≠ vf) : (s.setFlagThenShift x c f).reg x = f (s.reg x) := by
  rw [State.setFlagThenShift_reg, if_pos rfl, if_neg hx]

theorem State.setFlagThenShift_reg_vf (hx : x ≠ vf) : (s.setFlagThenShift x c f).reg vf = flagByte c := by
  rw [State.setFlagThenShift_reg, if_neg hx.symm, if_pos rfl]

end Writes

/-! ### Moves, the immediate add and the logic operations (R120 to R125) -/

/-- What an instruction does that only writes a byte to its destination. -/
theorem exists_setReg {x : Reg} {u : Byte} (hexec : exec i s = .next (s.advance.setReg x u)) :
    ∃ t, exec i s = .next t ∧ t.reg x = u ∧ t.pc = s.pc + 2 ∧ OnlyChanges [.pc] [x] s t :=
  ⟨_, hexec, State.setReg_reg_self _ x u, rfl, s.advance_frame.trans (State.setReg_frame _ x u)⟩

/-- Settles O20: both write a byte to the destination and nothing else. -/
theorem loadsAndCopyWriteTheDestination : Obligations.LoadsAndCopyWriteTheDestination :=
  fun x y kk s => ⟨encodedAs_of_packXkk 0x6 rfl, encodedAs_of_packXyn 0x8 0x0 rfl,
    exists_setReg (exec_ldImm x kk s), exists_setReg (exec_ldReg x y s)⟩

/-- Settles O21: the byte written is the sum, which wraps. -/
theorem addImmediateWrapsWithoutFlag : Obligations.AddImmediateWrapsWithoutFlag := by
  intro x kk s
  obtain ⟨t, hexec, hdest, hpc, hframe⟩ := exists_setReg (exec_addImm x kk s)
  exact ⟨encodedAs_of_packXkk 0x7 rfl, t, hexec, by rw [hdest, BitVec.toNat_add], hpc, hframe⟩

/-- The bits of the byte written are those of the operands under one Boolean operation. -/
theorem exists_setReg_bitwise {x : Reg} {u a b : Byte} {op : Bool → Bool → Bool}
    (hexec : exec i s = .next (s.advance.setReg x u)) (hbits : ∀ k, u.getLsbD k = op (a.getLsbD k) (b.getLsbD k)) :
    ∃ t, exec i s = .next t ∧ t.pc = s.pc + 2 ∧ OnlyChanges [.pc] [x] s t ∧
      ∀ k < 8, (t.reg x).getLsbD k = op (a.getLsbD k) (b.getLsbD k) := by
  obtain ⟨t, hexec, hdest, hpc, hframe⟩ := exists_setReg hexec
  exact ⟨t, hexec, hpc, hframe, fun k _ => hdest ▸ hbits k⟩

/-- Settles O22: each operation on bytes is the Boolean one in every bit. -/
theorem logicOperationsLeaveVfAlone : Obligations.LogicOperationsLeaveVfAlone :=
  fun x y s => ⟨encodedAs_of_packXyn 0x8 0x1 rfl, encodedAs_of_packXyn 0x8 0x2 rfl, encodedAs_of_packXyn 0x8 0x3 rfl,
    exists_setReg_bitwise (exec_orReg x y s) fun _ => BitVec.getLsbD_or,
    exists_setReg_bitwise (exec_andReg x y s) fun _ => BitVec.getLsbD_and,
    exists_setReg_bitwise (exec_xorReg x y s) fun _ => BitVec.getLsbD_xor⟩

/-! ### The adds and subtracts of registers (R126, R127, R129) -/

/-- What an instruction does that writes the result and then the flag: with VF as its destination the result is lost
(R131). -/
theorem exists_setResultThenFlag {x : Reg} {u : Byte} {c : Bool} {n : Nat} {P : Prop} [Decidable P]
    (hexec : exec i s = .next (s.advance.setResultThenFlag x u c)) (hc : c = true ↔ P) (hu : u.toNat = n) :
    ∃ t, exec i s = .next t ∧ (t.reg 15).toNat = (if P then 1 else 0) ∧ (x ≠ 15 → (t.reg x).toNat = n) ∧
      t.pc = s.pc + 2 ∧ OnlyChanges [.pc] [x, 15] s t := by
  refine ⟨_, hexec, ?_, fun hx => ?_, rfl, s.advance_frame.trans (State.setResultThenFlag_frame _ x u c)⟩
  · rw [State.setResultThenFlag_reg_vf, toNat_flagByte_of_iff hc]
  · rw [State.setResultThenFlag_reg_dest _ _ _ hx, hu]

/-- Settles O23: the flag is the carry of the unsigned sum. -/
theorem addRegistersSetsCarry : Obligations.AddRegistersSetsCarry :=
  fun x y s => ⟨encodedAs_of_packXyn 0x8 0x4 rfl,
    exists_setResultThenFlag (exec_addReg x y s) (carryOut_iff _ _) (BitVec.toNat_add _ _)⟩

/-- Settles O24: the flag is set when the minuend is at least the subtrahend, in either direction. -/
theorem subtractSetsNotBorrow : Obligations.SubtractSetsNotBorrow :=
  fun x y s => ⟨encodedAs_of_packXyn 0x8 0x5 rfl, encodedAs_of_packXyn 0x8 0x7 rfl,
    exists_setResultThenFlag (exec_subReg x y s) (noBorrow_iff _ _) (toNat_byte_sub _ _),
    exists_setResultThenFlag (exec_subnReg x y s) (noBorrow_iff _ _) (toNat_byte_sub _ _)⟩

/-! ### The shifts (R128, R130) -/

/-- Settles O25: with `x` = VF it is the flag just written that is shifted, and it is lost. -/
theorem shiftRightFlagsTheLowBit : Obligations.ShiftRightFlagsTheLowBit := by
  intro x y s
  refine ⟨encodedAs_of_packXyn 0x8 0x6 rfl, _, exec_shr x y s, fun hx => ⟨?_, ?_⟩, ?_, rfl,
    s.advance_frame.trans (State.setFlagThenShift_frame _ _ _ _)⟩
  · rw [State.setFlagThenShift_reg_dest _ _ _ hx, toNat_shiftRight_one, State.advance_reg]
  · rw [State.setFlagThenShift_reg_vf _ _ _ hx, toNat_flagByte_lowBit]
  · rintro rfl
    rw [State.setFlagThenShift_reg_vf_self, flagByte_shiftRight_one]

/-- Settles O26: with `x` = VF it is the flag just written that is shifted, to 2 or 0. -/
theorem shiftLeftFlagsTheHighBit : Obligations.ShiftLeftFlagsTheHighBit := by
  intro x y s
  refine ⟨encodedAs_of_packXyn 0x8 0xE rfl, _, exec_shl x y s, fun hx => ⟨?_, ?_⟩, ?_, rfl,
    s.advance_frame.trans (State.setFlagThenShift_frame _ _ _ _)⟩
  · rw [State.setFlagThenShift_reg_dest _ _ _ hx, toNat_shiftLeft_one, State.advance_reg]
  · rw [State.setFlagThenShift_reg_vf _ _ _ hx, toNat_flagByte_highBit]
  · rintro rfl
    rw [State.setFlagThenShift_reg_vf_self, toNat_flagByte_shiftLeft_one]
    exact if_congr (highBit_iff _) rfl rfl

/-- Settles O27: the two shifts composed, `V[x]` being the low seven bits doubled between them. -/
theorem shiftLeftThenRightRestoresSevenBits : Obligations.ShiftLeftThenRightRestoresSevenBits := by
  intro x y z s hx
  obtain ⟨-, t, hshl, hleft, -⟩ := shiftLeftFlagsTheHighBit x y s
  obtain ⟨-, u, hshr, hright, -⟩ := shiftRightFlagsTheLowBit x z t
  obtain ⟨hdoubled, htop⟩ := hleft hx
  obtain ⟨hhalved, hlow⟩ := hright hx
  exact ⟨t, u, hshl, hshr, by omega, by omega, by omega⟩

/-! ### The random byte (R132) -/

/-- Settles O28: the drawn byte under the mask has no bit outside it. -/
theorem randomDrawsOneFreshByteUnderTheMask : Obligations.RandomDrawsOneFreshByteUnderTheMask := by
  intro x kk s
  have hdest := s.advance.countDraw.setReg_reg_self x (Config.rand8 s.draws &&& kk)
  refine ⟨encodedAs_of_packXkk 0xC rfl, _, exec_rnd x kk s, hdest, ?_, rfl, rfl,
    (s.advance_frame.trans (State.countDraw_frame _)).trans (State.setReg_frame _ x _)⟩
  rw [hdest, BitVec.and_assoc, BitVec.and_not_self]
  exact BitVec.and_zero

end Sys2Proof.Machine

/-! The index register and memory (spec/43_memory_index.md): the word of an instruction with one register operand, then the
instructions that only write `I`, the stores as one block written at `I`, and the bulk load. -/

namespace Sys2Proof.Machine

variable {s u : State} {i : Instr}

/-! ### The number of an instruction's word -/

/-- Format `X` (R72): the low byte stands beside the opcode nibble, as it is fixed in the rows of family F (R74). -/
theorem encodedAs_of_packXkk_fixed (op : Nibble) (kk : Byte) {x : Reg} (h : encode i = packXkk op x kk) :
    EncodedAs i (op.toNat * 4096 + kk.toNat + 256 * x.val) :=
  Nat.add_right_comm .. ▸ encodedAs_of_packXkk op h

/-! ### The index register (R140 to R142) -/

theorem exec_ldI (nnn : Imm12) (s : State) : exec (.ldI nnn) s = .next (s.advance.setI (zextImm nnn)) := rfl

theorem exec_addI (x : Reg) (s : State) :
    exec (.addI x) s = .next (s.advance.setI (s.i + zextByte (s.reg x))) := rfl

theorem exec_ldFont (x : Reg) (s : State) :
    exec (.ldFont x) s = .next (s.advance.setI (glyphAddress (s.reg x))) := rfl

theorem toNat_add_zextByte (a : Word) (b : Byte) : (a + zextByte b).toNat = (a.toNat + b.toNat) % 65536 := by
  rw [BitVec.toNat_add, zextByte_toNat]

theorem toNat_glyphAddress (b : Byte) : (glyphAddress b).toNat = 5 * (b.toNat % 16) := by
  rw [glyphAddress, BitVec.toNat_ofNat]
  omega

/-- What an instruction does that only writes a word to `I`. -/
theorem exists_setI {a : Word} {n : Nat} (hexec : exec i s = .next (s.advance.setI a)) (ha : a.toNat = n) :
    ∃ t, exec i s = .next t ∧ t.i.toNat = n ∧ t.pc = s.pc + 2 ∧ OnlyChanges [.pc, .index] [] s t :=
  ⟨_, hexec, ha, rfl, s.advance_frame.trans (State.setI_frame _ a)⟩

/-- Settles O29: each of the three writes one word to `I`, and nothing else. -/
theorem indexInstructionsWriteI : Obligations.IndexInstructionsWriteI :=
  fun x nnn s => ⟨encodedAs_of_packNnn 0xA rfl, encodedAs_of_packXkk_fixed 0xF 0x1E rfl,
    encodedAs_of_packXkk_fixed 0xF 0x29 rfl, exists_setI (exec_ldI nnn s) (zextImm_toNat nnn),
    exists_setI (exec_addI x s) (toNat_add_zextByte _ _), exists_setI (exec_ldFont x s) (toNat_glyphAddress _)⟩

/-! ### The stores (R143, R144) -/

theorem memRead_setMem_writeMany_inside {m : Memory} {base k : Nat} {us : List Byte} (hk : k < us.length)
    (hspan : base + us.length ≤ 4096) :
    (u.setMem (m.writeMany base us)).memRead (base + k) = some (us.getD k 0) := by
  rw [State.memRead_eq_some_iff, State.setMem_mem, Memory.read_writeMany, if_pos ⟨by omega, by omega⟩,
    Nat.add_sub_cancel_left]
  exact ⟨by omega, rfl⟩

theorem memRead_setMem_writeMany_outside {base a : Nat} {us : List Byte} (ha : a < base ∨ base + us.length ≤ a) :
    (u.setMem (s.mem.writeMany base us)).memRead a = s.memRead a := by
  have hout : ¬(base ≤ a ∧ a < base + us.length) := by omega
  rw [State.memRead_eq, State.memRead_eq, State.setMem_mem, Memory.read_writeMany, if_neg hout]

/-- What an instruction does that only stores a block at `I`. -/
theorem exists_storeBlock {us : List Byte} (hspan : s.i.toNat + us.length ≤ 4096)
    (hexec : exec i s = .next (s.advance.setMem (s.mem.writeMany s.i.toNat us))) :
    ∃ t, exec i s = .next t ∧ (∀ k < us.length, t.memRead (s.i.toNat + k) = some (us.getD k 0)) ∧
      (∀ a, a < s.i.toNat ∨ s.i.toNat + us.length ≤ a → t.memRead a = s.memRead a) ∧
      t.pc = s.pc + 2 ∧ OnlyChanges [.pc, .memory] [] s t :=
  ⟨_, hexec, fun _ hk => memRead_setMem_writeMany_inside hk hspan, fun _ ha => memRead_setMem_writeMany_outside ha, rfl,
    s.advance_frame.trans (State.setMem_frame _ _)⟩

theorem length_bcdDigits (b : Byte) : (bcdDigits b).length = 3 := rfl

/-- Settles O30: the block stored is the three digits. -/
theorem bcdStoresThreeDigits : Obligations.BcdStoresThreeDigits := by
  refine fun x s => ⟨encodedAs_of_packXkk_fixed 0xF 0x33 rfl, fun hspan => ?_, fun h => exec_of_ownFault s (if_pos h)⟩
  have hlen := length_bcdDigits (s.reg x)
  obtain ⟨t, hexec, hinside, houtside, hpc, hframe⟩ :=
    exists_storeBlock (us := bcdDigits (s.reg x)) (by omega) (exec_ldBcd_inBounds s x hspan)
  exact ⟨t, hexec, hinside 0 (by omega), hinside 1 (by omega), hinside 2 (by omega), fun a ha => houtside a (by omega),
    hpc, hframe⟩

/-- Settles O31: the block stored is the registers V0 to Vx. -/
theorem bulkStoreWritesRegistersZeroToX : Obligations.BulkStoreWritesRegistersZeroToX := by
  refine fun x s => ⟨encodedAs_of_packXkk_fixed 0xF 0x55 rfl, fun hspan => ?_, fun h => exec_of_ownFault s (if_pos h)⟩
  have hlen := s.length_firstRegs x
  obtain ⟨t, hexec, -, houtside, hpc, hframe⟩ :=
    exists_storeBlock (us := s.firstRegs x) (by omega) (exec_storeRegs_inBounds s hspan)
  exact ⟨t, hexec, fun k hk => memRead_of_storeRegs hspan hk hexec, fun a ha => houtside a (by omega), hpc, hframe⟩

/-! ### The bulk load (R145) -/

/-- Settles O32: the `k`-th byte read from `I` on goes to `V[k]`, and only V0 to Vx are filled. -/
theorem bulkLoadReadsRegistersZeroToX : Obligations.BulkLoadReadsRegistersZeroToX := by
  refine fun x s => ⟨encodedAs_of_packXkk_fixed 0xF 0x65 rfl, fun hspan => ?_, fun h => exec_of_ownFault s (if_pos h)⟩
  have hlen := s.mem.length_readMany s.i.toNat (x.val + 1)
  refine ⟨_, exec_loadRegs_inBounds s hspan, fun k hk => ?_, rfl,
    s.advance_frame.trans (State.fillRegs_frame _ x hlen)⟩
  have hkx : k.val ≤ x.val := hk
  rw [State.fillRegs_reg _ _ (by omega), if_pos (by omega), Memory.getD_readMany _ _ _ _ (by omega)]
  exact State.memRead_eq_some_iff.mpr ⟨by omega, rfl⟩

end Sys2Proof.Machine

/-! The display (spec/44_display.md): the cleared screen, the pixels a sprite covers as its list of distinct cells, and
the draw as the toggling of those cells. -/

namespace Sys2Proof.Machine

/-! ### The number of an instruction's word -/

/-- Format `XYN` (R72): the trailing nibble is an operand and stands last, as in the row of `DRW` (R74). -/
theorem encodedAs_of_packXyn_operand (op n : Nibble) {i : Instr} {x y : Reg} (h : encode i = packXyn op x y n) :
    EncodedAs i (op.toNat * 4096 + 256 * x.val + 16 * y.val + n.toNat) :=
  encodedAs_of_toNat (by rw [h, toNat_packXyn]; omega)

variable (s : State) (x y : Reg) (n : Nibble)

/-! ### The cleared screen (R151) -/

theorem exec_cls : exec .cls s = .next (s.advance.setFb 0) := rfl

/-- Settles O35: the framebuffer written has no bit set. -/
theorem clearScreenClearsEveryCell : Obligations.ClearScreenClearsEveryCell :=
  ⟨encodedAs_of_toNat rfl, fun s => ⟨_, exec_cls s, fun _ _ => BitVec.getLsbD_zero, rfl,
    s.advance_frame.trans (State.setFb_frame _ 0)⟩⟩

/-! ### The cells of a sprite (R150, R152) -/

/-- The cells the sprite of `n` bytes at `I`, drawn from (`V[x]`, `V[y]`), lands on. -/
def State.drawnCells : List Nat :=
  spriteCells (s.reg x).toNat (s.reg y).toNat 0 (s.mem.readMany s.i.toNat n.toNat)

theorem State.mem_drawnCells {k : Nat} : k ∈ s.drawnCells x y n ↔
    ∃ row < n.toNat, ∃ col < 8, (s.mem.read (s.i.toNat + row)).getLsbD (7 - col) = true ∧
      k = ((s.reg y).toNat + row) % 32 * 64 + ((s.reg x).toNat + col) % 64 := by
  rw [State.drawnCells, mem_spriteCells, Memory.length_readMany]
  refine exists_congr fun row => and_congr_right fun hrow => ?_
  rw [Memory.getD_readMany _ _ _ _ hrow, Nat.zero_add]

/-- A pixel is covered exactly when its cell is drawn: a cell number has one column and one row. -/
theorem State.pixel_mem_drawnCells {cx cy : Nat} (hx : cx < 64) :
    cy * 64 + cx ∈ s.drawnCells x y n ↔ SpriteCovers s x y n cx cy := by
  rw [State.mem_drawnCells]
  refine exists_congr fun row => and_congr_right fun _ => exists_congr fun col =>
    and_congr_right fun _ => and_congr_right fun _ => ?_
  omega

/-- Every drawn cell is a pixel of the screen. -/
theorem State.exists_mem_drawnCells_iff_exists_pixel {P : Nat → Prop} : (∃ k ∈ s.drawnCells x y n, P k) ↔
    ∃ cx < 64, ∃ cy < 32, P (cy * 64 + cx) ∧ SpriteCovers s x y n cx cy := by
  constructor
  · rintro ⟨k, hk, hP⟩
    obtain ⟨row, -, col, -, -, hcell⟩ := (s.mem_drawnCells x y n).mp hk
    obtain ⟨cx, cy, hcx, hcy, rfl⟩ : ∃ cx cy, cx < 64 ∧ cy < 32 ∧ k = cy * 64 + cx :=
      ⟨_, _, Nat.mod_lt _ (by decide), Nat.mod_lt _ (by decide), hcell⟩
    exact ⟨cx, hcx, cy, hcy, hP, (s.pixel_mem_drawnCells x y n hcx).mp hk⟩
  · rintro ⟨cx, hcx, cy, -, hP, hcovers⟩
    exact ⟨_, (s.pixel_mem_drawnCells x y n hcx).mpr hcovers, hP⟩

/-- Bit 7 is column 0, so the eight columns read every bit of the byte (R150). -/
theorem ne_zero_iff_exists_column (b : Byte) : b ≠ 0 ↔ ∃ col < 8, b.getLsbD (7 - col) = true := by
  constructor
  · intro hb
    by_contra! hclear
    refine hb (BitVec.eq_of_getLsbD_eq fun k hk => ?_)
    have hbit := hclear (7 - k) (by omega)
    rw [Nat.sub_sub_self (by omega)] at hbit
    rw [Bool.eq_false_of_not_eq_true hbit]
    exact BitVec.getLsbD_zero.symm
  · rintro ⟨col, -, hbit⟩ rfl
    cases BitVec.getLsbD_zero.symm.trans hbit

theorem State.exists_mem_drawnCells_iff :
    (∃ k, k ∈ s.drawnCells x y n) ↔ ∃ row < n.toNat, s.mem.read (s.i.toNat + row) ≠ 0 := by
  simp only [State.mem_drawnCells, ne_zero_iff_exists_column]
  constructor
  · rintro ⟨-, row, hrow, col, hcol, hbit, -⟩
    exact ⟨row, hrow, col, hcol, hbit⟩
  · rintro ⟨row, hrow, col, hcol, hbit⟩
    exact ⟨_, row, hrow, col, hcol, hbit, rfl⟩

/-! ### The draw (R152) -/

theorem length_sprite_le : (s.mem.readMany s.i.toNat n.toNat).length ≤ 32 := by
  rw [Memory.length_readMany]
  omega

theorem State.drawSprite_getLsbD (k : Nat) :
    (s.drawSprite x y n).1.getLsbD k = (s.cell k ^^ decide (k ∈ s.drawnCells x y n)) :=
  (drawRows_spec _ _ _ s.fb (length_sprite_le s n)).1 k

theorem State.drawSprite_collision :
    (s.drawSprite x y n).2 = true ↔ ∃ k ∈ s.drawnCells x y n, s.cell k = true := by
  rw [State.drawSprite, (drawRows_spec _ _ _ s.fb (length_sprite_le s n)).2, List.any_eq_true]
  rfl

/-- The state after the draw of a sprite that lies in memory. -/
def State.drawn : State := (s.advance.setFb (s.drawSprite x y n).1).setFlag (s.drawSprite x y n).2

theorem State.drawn_frame : OnlyChanges [.pc, .framebuffer] [15] s (s.drawn x y n) :=
  (s.advance_frame.trans (State.setFb_frame _ _)).trans (State.setReg_frame _ vf _)

theorem State.drawn_cell (k : Nat) :
    (s.drawn x y n).cell k = (s.cell k ^^ decide (k ∈ s.drawnCells x y n)) := s.drawSprite_getLsbD x y n k

theorem State.drawn_reg_vf : (s.drawn x y n).reg 15 = flagByte (s.drawSprite x y n).2 :=
  State.setReg_reg_self _ vf _

theorem flagByte_eq_one_iff (c : Bool) : flagByte c = 1 ↔ c = true := by
  cases c <;> decide

theorem flagByte_eq_zero_or_one (c : Bool) : flagByte c = 0 ∨ flagByte c = 1 := by
  cases c <;> decide

theorem State.drawn_reg_vf_eq_one_iff :
    (s.drawn x y n).reg 15 = 1 ↔ ∃ k ∈ s.drawnCells x y n, s.cell k = true := by
  rw [State.drawn_reg_vf, flagByte_eq_one_iff, State.drawSprite_collision]

theorem State.drawn_cell_ne_iff (k : Nat) :
    (s.drawn x y n).cell k ≠ s.cell k ↔ k ∈ s.drawnCells x y n := by
  rw [State.drawn_cell]
  cases s.cell k <;> simp

/-! ### The same draw again -/

variable {x y}

theorem State.drawn_reg_of_ne {r : Reg} (hr : r ≠ 15) : (s.drawn x y n).reg r = s.reg r :=
  (s.drawn_frame x y n).2 r (by simpa using hr)

/-- Neither the sprite nor, with `x` and `y` not VF, its place has changed. -/
theorem State.drawn_drawnCells (hx : x ≠ 15) (hy : y ≠ 15) :
    (s.drawn x y n).drawnCells x y n = s.drawnCells x y n := by
  rw [State.drawnCells, State.drawn_reg_of_ne s n hx, State.drawn_reg_of_ne s n hy]
  rfl

/-- Toggling the same cells twice restores each. -/
theorem State.drawn_drawn_fb (hx : x ≠ 15) (hy : y ≠ 15) : ((s.drawn x y n).drawn x y n).fb = s.fb := by
  refine BitVec.eq_of_getLsbD_eq fun k _ => ?_
  calc ((s.drawn x y n).drawn x y n).cell k
      = ((s.cell k ^^ decide (k ∈ s.drawnCells x y n)) ^^ decide (k ∈ s.drawnCells x y n)) := by
        rw [State.drawn_cell, State.drawn_cell, State.drawn_drawnCells s n hx hy]
    _ = s.cell k := by rw [Bool.xor_assoc, Bool.xor_self, Bool.xor_false]

/-- On a blank screen the first draw sets exactly the drawn cells, so the second one collides when there is one. -/
theorem State.drawn_drawn_reg_vf_eq_one_iff (hx : x ≠ 15) (hy : y ≠ 15) (hblank : ∀ k, s.cell k = false) :
    ((s.drawn x y n).drawn x y n).reg 15 = 1 ↔ ∃ row < n.toNat, s.mem.read (s.i.toNat + row) ≠ 0 := by
  rw [State.drawn_reg_vf_eq_one_iff, State.drawn_drawnCells s n hx hy, ← State.exists_mem_drawnCells_iff s x y n]
  refine exists_congr fun k => and_iff_left_of_imp fun hk => ?_
  rw [State.drawn_cell, hblank, Bool.false_xor, decide_eq_true hk]

theorem State.drawn_reg_vf_of_blank (hblank : ∀ k, s.cell k = false) : (s.drawn x y n).reg 15 = 0 := by
  refine (State.drawn_reg_vf s x y n ▸ flagByte_eq_zero_or_one _).resolve_right fun hone => ?_
  obtain ⟨k, -, hset⟩ := (s.drawn_reg_vf_eq_one_iff x y n).mp hone
  cases (hblank k).symm.trans hset

/-- Above the last cell the framebuffer reads false. -/
theorem State.cell_eq_false_of_blank (hblank : ∀ k < 2048, s.cell k = false) (k : Nat) : s.cell k = false := by
  by_cases hk : k < 2048
  · exact hblank k hk
  · exact BitVec.getLsbD_of_ge _ _ (not_lt.mp hk)

/-- Settles O36: the draw toggles the drawn cells, which are the covered pixels; the second draw toggles them back. -/
theorem drawTogglesExactlyTheSpritePixels : Obligations.DrawTogglesExactlyTheSpritePixels := by
  refine fun x y n s => ⟨encodedAs_of_packXyn_operand 0xD n rfl, fun hspan => ?_,
    fun h => exec_of_ownFault s (if_pos h)⟩
  have hspan' : n.toNat = 0 ∨ s.i.toNat + n.toNat ≤ 4096 := by omega
  refine ⟨s.drawn x y n, exec_drw_inBounds s x y hspan', fun cx hcx cy _ => ?_, ?_, ?_, rfl, s.drawn_frame x y n,
    fun hx hy => ⟨(s.drawn x y n).drawn x y n, exec_drw_inBounds _ x y hspan', s.drawn_drawn_fb n hx hy,
      fun hscreen => ?_⟩⟩
  · exact (s.drawn_cell_ne_iff x y n _).trans (s.pixel_mem_drawnCells x y n hcx)
  · exact s.drawn_reg_vf x y n ▸ flagByte_eq_zero_or_one _
  · exact (s.drawn_reg_vf_eq_one_iff x y n).trans (s.exists_mem_drawnCells_iff_exists_pixel x y n)
  · have hblank := s.cell_eq_false_of_blank hscreen
    exact ⟨s.drawn_drawn_reg_vf_eq_one_iff n hx hy hblank, s.drawn_reg_vf_of_blank n hblank⟩

end Sys2Proof.Machine

/-! Timers and keypad (spec/45_timers_input.md): the moves of a timer byte, which sound no tone, the skips on the level
of a key, and the key wait, which takes the first pressed key in index order. -/

namespace Sys2Proof.Machine

variable {s t : State}

/-! ### The timer moves (R160 to R162) -/

section Meanings

variable (x : Reg) (s : State)

theorem exec_ldFromDt : exec (.ldFromDt x) s = .next (s.advance.setReg x s.dt) := rfl

theorem exec_ldDt : exec (.ldDt x) s = .next (s.advance.setDt (s.reg x)) := rfl

theorem exec_ldSt : exec (.ldSt x) s = .next (s.advance.setSt (s.reg x)) := rfl

end Meanings

/-- A `Tick` answers the driver with the fault it raised or with nothing, whatever instruction it runs. -/
theorem tone_not_mem_of_tick {out : List Output} (h : handle .tick s = .next (t, out)) : .tone ∉ out := by
  have hout := handle_tick_of_step (tickEvent_next h)
  cases h.symm.trans hout
  cases t.fault <;> simp

/-- Settles O38: each move is one update after the advance, and the tone is no output of a `Tick`. -/
theorem timerMovesCopyTheByte : Obligations.TimerMovesCopyTheByte :=
  fun x s => ⟨encodedAs_of_packXkk_fixed 0xF 0x07 rfl, encodedAs_of_packXkk_fixed 0xF 0x15 rfl,
    encodedAs_of_packXkk_fixed 0xF 0x18 rfl, exists_setReg (exec_ldFromDt x s),
    ⟨_, exec_ldDt x s, rfl, rfl, s.advance_frame.trans (State.setDt_frame _ _)⟩,
    ⟨_, exec_ldSt x s, rfl, rfl, s.advance_frame.trans (State.setSt_frame _ _)⟩,
    fun _ _ h => tone_not_mem_of_tick h⟩

/-! ### The skips on a key (R163, R164) -/

/-- Settles O39: each skip by the level of the key, and above 15 the own check fails. -/
theorem keySkipsTestTheKeyLevel : Obligations.KeySkipsTestTheKeyLevel := by
  refine fun x s => ⟨encodedAs_of_packXkk_fixed 0xE 0x9E rfl, encodedAs_of_packXkk_fixed 0xE 0xA1 rfl,
    fun k hk => ⟨?_, ?_⟩, fun habove => ⟨exec_of_ownFault s (if_pos habove), exec_of_ownFault s (if_pos habove)⟩⟩
  · exact exists_skip_of_iff (exec_skp_of_index s hk) Iff.rfl
  · exact exists_skip_of_iff (exec_sknp_of_index s hk) (iff_of_eq (Bool.not_eq_true' _))

/-! ### The key wait (R165) -/

/-- The search runs in index order, so it finds a pressed key with none pressed below it. -/
theorem State.firstKey_of_least (s : State) {k : Fin 16} (hdown : s.key[k.val] = true)
    (hleast : ∀ j : Fin 16, j < k → s.key[j.val] = false) : s.firstKey = some k := by
  cases hfirst : s.firstKey with
  | none => cases hdown.symm.trans (s.firstKey_none.mp hfirst k)
  | some j =>
    obtain ⟨hjdown, hjleast⟩ := s.firstKey_some hfirst
    have hjk : ¬j < k := fun h => Bool.false_ne_true ((hleast j h).symm.trans hjdown)
    have hkj : ¬k < j := fun h => Bool.false_ne_true ((hjleast k h).symm.trans hdown)
    rw [le_antisymm (not_lt.mp hkj) (not_lt.mp hjk)]

/-- A key index fits in a byte. -/
theorem toNat_ofNat_keyIndex (k : Fin 16) : (BitVec.ofNat 8 k.val).toNat = k.val := by
  rw [BitVec.toNat_ofNat]
  omega

/-- Settles O40: with a least pressed key the wait writes its index, with none it leaves the state. -/
theorem keyWaitTakesTheLeastPressedKey : Obligations.KeyWaitTakesTheLeastPressedKey := by
  refine fun x s => ⟨encodedAs_of_packXkk_fixed 0xF 0x0A rfl, fun k hdown hleast => ?_, fun hup => ?_⟩
  · have hfirst := s.firstKey_of_least hdown hleast
    obtain ⟨t, hexec, hdest, hpc, hframe⟩ := exists_setReg (exec_ldKey_pressed s x hfirst)
    exact ⟨t, hexec, by rw [hdest, toNat_ofNat_keyIndex], hpc, hframe⟩
  · exact exec_ldKey_idle s x (s.firstKey_none.mpr hup)

end Sys2Proof.Machine

/-! Exceptions and events (spec/60_exceptions.md): the codes of the fault kinds, then what each event of the driver
answers, refusal and latch included, and the tone as an output of `TimerTick` alone. -/

namespace Sys2Proof.Machine

variable {s t : State} {out : List Output}

/-! ### The codes of the fault kinds (R170) -/

/-- The kind of a code of R170; a number above 5, or 0, is no code and is given the last kind. -/
def FaultKind.ofCode : Nat → FaultKind
  | 1 => .unimplementedOpcode
  | 2 => .stackOverflow
  | 3 => .stackUnderflow
  | 4 => .memoryOutOfBounds
  | _ => .keyIndexOutOfRange

theorem FaultKind.ofCode_code (k : FaultKind) : FaultKind.ofCode k.code = k := by
  cases k <;> rfl

theorem FaultKind.code_injective : Function.Injective FaultKind.code :=
  Function.LeftInverse.injective FaultKind.ofCode_code

/-- Settles O37: the table row by row, and the kind can be read back from its code. -/
theorem faultCodesTellTheKindsApart : Obligations.FaultCodesTellTheKindsApart :=
  ⟨rfl, rfl, rfl, rfl, rfl, fun _ _ h => FaultKind.code_injective h⟩

/-! ### The display (R181) -/

theorem State.length_cells (s : State) : s.cells.length = 2048 := by
  rw [State.cells, List.length_map, List.length_range]

theorem State.getElem?_cells (s : State) {k : Nat} (h : k < 2048) : s.cells[k]? = some (s.cell k) := by
  rw [State.cells, List.getElem?_map, List.getElem?_range h]
  rfl

/-- Settles O44: the list holds every cell at its number, and a pixel's number is below 2048. -/
theorem getDisplayReturnsTheCells : Obligations.GetDisplayReturnsTheCells :=
  fun s => ⟨s.cells, rfl, s.length_cells, fun _ _ _ _ => s.getElem?_cells (by omega)⟩

/-! ### The keypad (R180) -/

theorem State.setKeyFlag_key_self (s : State) (k : Fin 16) (b : Bool) : (s.setKeyFlag k b).key[k.val] = b :=
  Vector.getElem_set_self _

theorem State.setKeyFlag_key_of_ne (s : State) {j k : Fin 16} (b : Bool) (h : j ≠ k) :
    (s.setKeyFlag k b).key[j.val] = s.key[j.val] :=
  Vector.getElem_set_ne k.isLt j.isLt (Fin.val_ne_of_ne h.symm)

theorem State.setKeyFlag_eq_self (s : State) {k : Fin 16} {b : Bool} (h : s.key[k.val] = b) : s.setKeyFlag k b = s := by
  rw [State.setKeyFlag, ← h, Vector.set_getElem_self]

theorem State.setKeyFlag_frame (s : State) (k : Fin 16) (b : Bool) : OnlyChanges [.keypad] [] s (s.setKeyFlag k b) :=
  ⟨fun p hp => by cases p <;> simp_all [Part.same, State.memRead], fun _ _ => rfl⟩

theorem setKey_of_index (k : Fin 16) (b : Bool) (s : State) :
    setKey k.val b s = whenLive s (.next (s.setKeyFlag k b, [])) := by
  rw [setKey, if_pos ((keyIndexOk_iff _).mpr k.isLt), Fin.ofNat_val_eq_self]

/-- The refusal does not look at the latch. -/
theorem setKey_refused {k : Nat} (h : 16 ≤ k) (b : Bool) (s : State) :
    setKey k b s = .refused .keyIndexOutsideContract :=
  if_neg (mt (keyIndexOk_iff k).mp (Nat.not_lt.mpr h))

/-- Settles O42: the flag written, its frame, and the two ways `SetKey` has no step. -/
theorem setKeyWritesOneFlag : Obligations.SetKeyWritesOneFlag := by
  refine ⟨fun s k b hclear => ?_, fun s k b _ h => setKey_refused h b s, fun s k b hset => ?_⟩
  · exact ⟨s.setKeyFlag k b, (setKey_of_index k b s).trans (whenLive_clear hclear _), s.setKeyFlag_key_self k b,
      fun _ hj => s.setKeyFlag_key_of_ne b hj, s.setKeyFlag_frame k b, s.setKeyFlag_eq_self⟩
  · exact (setKey_of_index k b s).trans (whenLive_latched hset _)

/-! ### The program image (R182) -/

theorem load_of_fits {image : List Byte} (h : image.length ≤ 3584) (s : State) :
    load image s = whenLive s (.next (s.setMem (s.mem.writeMany loadAddr image), [])) :=
  if_pos ((imageOk_iff image).mpr h)

/-- The refusal does not look at the latch. -/
theorem load_refused {image : List Byte} (h : 3584 < image.length) (s : State) :
    load image s = .refused .imageTooLong :=
  if_neg (mt (imageOk_iff image).mp (Nat.not_le.mpr h))

/-- Where a block has been put, its `k`-th byte is read. -/
theorem memRead_of_writeMany {m : Memory} {base k : Nat} {us : List Byte} {u : Byte} (hspan : base + us.length ≤ 4096)
    (hk : us[k]? = some u) : (s.setMem (m.writeMany base us)).memRead (base + k) = some u := by
  obtain ⟨hlt, -⟩ := List.getElem?_eq_some_iff.mp hk
  rw [memRead_setMem_writeMany_inside hlt hspan, List.getD_eq_getElem?_getD, hk, Option.getD_some]

/-- Settles O43: the image is one block put at the load address, which ends inside memory. -/
theorem loadCopiesTheImage : Obligations.LoadCopiesTheImage := by
  refine ⟨fun s image hclear hfits => ?_, fun s image _ h => load_refused h s, fun s image hset hfits => ?_⟩
  · have hspan : 0x200 + image.length ≤ 4096 := by omega
    exact ⟨_, (load_of_fits hfits s).trans (whenLive_clear hclear _), fun _ _ hk => memRead_of_writeMany hspan hk,
      fun _ ha => memRead_setMem_writeMany_outside ha, s.setMem_frame _⟩
  · exact (load_of_fits hfits s).trans (whenLive_latched hset _)

/-- Settles O53: neither refusal looks at the latch. -/
theorem eventsOutsideTheContractAreRefusedFirst : Obligations.EventsOutsideTheContractAreRefusedFirst :=
  fun s _ => ⟨fun _ b h => setKey_refused h b s, fun _ h => load_refused h s⟩

/-! ### The timers and the tone (R178, R179) -/

/-- What `TimerTick` gives the driver: the tone, at the transition of `ST` from 1 to 0. -/
theorem timerTick_clear (h : s.fault = none) :
    timerTick s = .next ((s.setDt (agedTimer s.dt)).setSt (agedTimer s.st), if s.st.toNat = 1 then [.tone] else []) := by
  have hone : s.st = 1 ↔ s.st.toNat = 1 := BitVec.toNat_inj.symm
  rw [timerTick, whenLive_clear h, if_congr hone rfl rfl]

/-- An event with a contract, which requires a clear latch, as `Load` and `SetKey` are, gives no output. -/
theorem out_eq_nil_of_contract {c : Prop} [Decidable c] {u : State} {r : Refusal}
    (h : (if c then whenLive s (.next (u, [])) else .refused r) = .next (t, out)) : out = [] := by
  split at h
  · obtain ⟨-, hnext⟩ := whenLive_next h
    cases hnext
    rfl
  · cases h

theorem st_eq_one_of_tone (h : timerTick s = .next (t, out)) (htone : .tone ∈ out) : s.st.toNat = 1 := by
  cases (timerTick_clear (timerTick_next h).1).symm.trans h
  by_contra hne
  rw [if_neg hne] at htone
  cases htone

/-- Only a `TimerTick` that finds `ST = 1` gives a tone. -/
theorem timerTick_of_tone {e : Event} (h : handle e s = .next (t, out)) (htone : .tone ∈ out) :
    e = .timerTick ∧ s.st.toNat = 1 := by
  cases e with
  | reset => cases h; cases htone
  | load image => cases out_eq_nil_of_contract h; cases htone
  | setKey index pressed => cases out_eq_nil_of_contract h; cases htone
  | tick => exact absurd htone (tone_not_mem_of_tick h)
  | timerTick => exact ⟨rfl, st_eq_one_of_tone h htone⟩
  | getDisplay => cases h; simp at htone

/-- Settles O41: both timers age, the latch stops the event, and no other event gives a tone. -/
theorem timerTickAgesBothTimers : Obligations.TimerTickAgesBothTimers := by
  refine ⟨fun s hclear => ?_, fun s hset => whenLive_latched hset _, fun _ _ _ _ h htone => timerTick_of_tone h htone⟩
  exact ⟨_, _, timerTick_clear hclear, agedTimer_toNat s.dt, agedTimer_toNat s.st,
    (s.setDt_frame _).trans (State.setSt_frame _ _), rfl⟩

end Sys2Proof.Machine

/-! Reset and the end of a run (spec/70_reset_and_hazards.md): the first `Tick` after reset, with nothing loaded and with
an image, and the program that spins on a jump to its own address. -/

namespace Sys2Proof.Machine

variable {s t : State}

/-! ### The first `Tick` (R201, R202) -/

theorem State.fetchWord_reset : State.reset.fetchWord = some 0x0000 := rfl

theorem decode_zero : decode 0x0000 = .illegal .family0 := rfl

/-- Settles O46: the word 0x0000 of the empty memory is undecodable. -/
theorem firstTickAfterResetFaults : Obligations.FirstTickAfterResetFaults :=
  step_of_decode_illegal rfl State.fetchWord_reset decode_zero

/-- An event that gives no output only moves the start of the run. -/
theorem handleAll_cons_of_silent {e : Event} (h : handle e s = .next (t, [])) (es : List Event) :
    handleAll (e :: es) s = handleAll es t := by
  simp only [handleAll, h]
  cases handleAll es t <;> rfl

theorem handle_reset (s : State) : handle .reset s = .next (resetEvent s, []) := rfl

/-- `Reset` clears the latch, so an image that fits is loaded after it in every state. -/
theorem handleAll_reset_load {image : List Byte} (h : image.length ≤ 3584) (s : State) :
    handleAll [.reset, .load image] s =
      .next ((resetEvent s).setMem ((resetEvent s).mem.writeMany loadAddr image), []) := by
  have hload : handle (.load image) (resetEvent s) = _ := (load_of_fits h _).trans (whenLive_clear rfl _)
  rw [handleAll_cons_of_silent (handle_reset s), handleAll_cons_of_silent hload]
  rfl

/-- Settles O47: `pc` is reset to the load address, where the image's first two bytes are read. -/
theorem bootFetchesTheFirstTwoImageBytes : Obligations.BootFetchesTheFirstTwoImageBytes := by
  intro s hi lo rest hrest
  have hfits : (hi :: lo :: rest).length ≤ 3584 := by simp only [List.length_cons]; omega
  have hspan : loadAddr + (hi :: lo :: rest).length ≤ 4096 := Nat.add_le_add_left hfits loadAddr
  exact ⟨_, handleAll_reset_load hfits s, rfl, rfl,
    State.fetchWord_of_memRead (memRead_of_writeMany (k := 0) hspan rfl) (memRead_of_writeMany (k := 1) hspan rfl)⟩

/-! ### The end of a run (R208) -/

theorem State.finished_iff : s.finished = true ↔
    s.fault = none ∧ s.pc.toNat < 4096 ∧ s.fetchWord = some (encode (.jp (s.pc.setWidth 12))) := by
  simp only [State.finished, Bool.and_eq_true, Option.isNone_iff_eq_none, decide_eq_true_iff, and_assoc]

/-- A jump to the address `pc` is at has the state itself as its next state. -/
theorem exec_jp_self {nnn : Imm12} (h : nnn.toNat = s.pc.toNat) : exec (.jp nnn) s = .next s := by
  obtain ⟨-, t, hexec, -, -, -, hself⟩ := jumpSetsPc nnn s
  rw [hexec, hself h.symm]

/-- Settles O52: the fetched word decodes to the jump to `pc`, an address of twelve bits. -/
theorem finishedProgramStaysFinished : Obligations.FinishedProgramStaysFinished := by
  refine ⟨fun s hclear hfinished => ?_, State.finished_iff.mpr ⟨rfl, by decide, rfl⟩⟩
  obtain ⟨-, hpc, hfetch⟩ := State.finished_iff.mp hfinished
  have htarget : (s.pc.setWidth 12).toNat = s.pc.toNat := by
    rw [BitVec.toNat_setWidth, Nat.mod_eq_of_lt hpc]
  rw [step_of_decode_instr hclear hfetch (decode_encode _), exec_jp_self htarget]

end Sys2Proof.Machine
